-- ==== Sys2Proof/Word.lean ====
section
/-! DEFINITION. The words of the RS-GF256 core: bytes (field elements), command words, register values (00_scope.md R6, R12). -/

namespace Sys2Proof

/-- A byte and a field element are the same thing, an unsigned 8-bit value (R12). -/
abbrev Byte := BitVec 8

/-- A command word, `CMDW = 64` bits (R6, R90). -/
abbrev Command := BitVec 64

/-- A value on the register port, `REGW = 32` bits (R6, R41). -/
abbrev RegWord := BitVec 32

end Sys2Proof
end

