-- ==== Sys2Proof/Config.lean ====
section
/-! DEFINITION. The implementation parameters of 00_scope.md R6, with the values this hardware takes, and the one free value. -/

namespace Sys2Proof.Config

/-- `POLY`: the low 8 bits of the generating polynomial (R6, R37). -/
abbrev POLY : Byte := 29#8

/-- Number of element registers (R6). -/
abbrev NE : Nat := 16

/-- Number of matrix banks (R6). -/
abbrev NB : Nat := 16

/-- Largest row count a bank holds (R6). -/
abbrev MAXR : Nat := 256

/-- Largest column count a bank holds (R6). -/
abbrev MAXC : Nat := 512

/-- Largest total shard count `k + m` (R6, R201). -/
abbrev NMAX : Nat := 256

/-- Number of shard buffers (R6). -/
abbrev NSH : Nat := 256

/-- Bytes in each shard buffer (R6). -/
abbrev SHCAP : Nat := 65536

/-- Order of the multiplicative group (R6). -/
abbrev ORDER : Nat := 255

/-- Entries of the antilog ROM (R6). -/
abbrev ALOG_LEN : Nat := 510

/-- `LOG[0]` has no defined content and no function reads it (40_field.md R123, 93 U3).
It is a FREE VALUE without a body: nothing can be proved of it (log entry 5). -/
opaque logOfZero : Byte

end Sys2Proof.Config
end

