-- ==== Sys2Proof/Syntax.lean ====
section
/-! DEFINITION. The 21 commands of 30_encoding.md R93, one constructor per row of spec/opcode_table.json. -/

namespace Sys2Proof

/-- An element register `e0` to `e15`: all 16 selector values are valid (R92). -/
abbrev EReg := Fin Config.NE

/-- A matrix bank `b0` to `b15`: all 16 selector values are valid (R92). -/
abbrev Bank := Fin Config.NB

/-- A command with its operands, in the order of R93's "assembler operands" column (destination first).
Selectors are bounded by their type; the other fields are the unsigned numbers their bits spell (R92) and
`WellFormed` says which of them a command word can spell. -/
inductive Instr where
  | eli (ed : EReg) (imm : Byte)
  | gfadd (ed ea eb : EReg)
  | gfsub (ed ea eb : EReg)
  | gfmul (ed ea eb : EReg)
  | gfdiv (ed ea eb : EReg)
  | gfexp (ed ea : EReg) (n : Nat)
  | mzero (bd : Bank) (rows cols : Nat)
  | mident (bd : Bank) (n : Nat)
  | mget (ed : EReg) (ba : Bank) (r c : Nat)
  | mset (bd : Bank) (r c : Nat) (ea : EReg)
  | mmul (bd ba bb : Bank)
  | maug (bd ba bb : Bank)
  | msub (bd ba : Bank) (rmin cmin rmax cmax : Nat)
  | mrow (bd ba : Bank) (r : Nat)
  | mswap (bd : Bank) (r1 r2 : Nat)
  | minv (bd ba : Bank)
  | cinit (k m : Nat)
  | cenc (off len : Nat)
  | cvfy (off len : Nat)
  | cdec (off len : Nat)
  | cgen (bd : Bank)
  deriving DecidableEq, Repr

end Sys2Proof
end

