-- ==== Sys2Proof/WellFormed.lean ====
section
/-! DEFINITION. Which commands a 64-bit word can spell: every number fits its field (30_encoding.md R90, R92, R98). -/

namespace Sys2Proof

/-- A number fits one of the 12-bit fields `n3`, `n2`, `n1`, `n0` (R90). -/
def fitsN (v : Nat) : Bool := decide (v < 4096)

/-- A number fits the 16-bit fields `off` and `len` (R90). -/
def fitsOL (v : Nat) : Bool := decide (v < 65536)

/-- A number fits the 32-bit field `imm32` (R90). -/
def fitsImm32 (v : Nat) : Bool := decide (v < 4294967296)

/-- The operands fit the fields of the command's format (R91, R92): what the assembler accepts (R98).
Selectors and `imm8` fit by their type. -/
def wellFormed : Instr → Bool
  | .eli _ _ => true
  | .gfadd _ _ _ => true
  | .gfsub _ _ _ => true
  | .gfmul _ _ _ => true
  | .gfdiv _ _ _ => true
  | .gfexp _ _ n => fitsImm32 n
  | .mzero _ rows cols => fitsN rows && fitsN cols
  | .mident _ n => fitsN n
  | .mget _ _ r c => fitsN r && fitsN c
  | .mset _ r c _ => fitsN r && fitsN c
  | .mmul _ _ _ => true
  | .maug _ _ _ => true
  | .msub _ _ rmin cmin rmax cmax => fitsN rmin && fitsN cmin && fitsN rmax && fitsN cmax
  | .mrow _ _ r => fitsN r
  | .mswap _ r1 r2 => fitsN r1 && fitsN r2
  | .minv _ _ => true
  | .cinit k m => fitsN k && fitsN m
  | .cenc off len => fitsOL off && fitsOL len
  | .cvfy off len => fitsOL off && fitsOL len
  | .cdec off len => fitsOL off && fitsOL len
  | .cgen _ => true

/-- A command that a command word can spell. -/
abbrev WellFormed (i : Instr) : Prop := wellFormed i = true

end Sys2Proof
end

