-- ==== Sys2Proof/Decode.lean ====
section
/-! DEFINITION. Decoding a command word (30_encoding.md R90 to R101), total on all 64-bit words, and the encoder. -/

namespace Sys2Proof

/-! The bit fields of R90. Every field is the unsigned number its bits spell (R92). -/

/-- `op = w[63:56]`. -/
def fOp (w : Command) : BitVec 8 := w.extractLsb' 56 8
/-- `d = w[55:52]`, the destination selector. -/
def fD (w : Command) : Fin 16 := (w.extractLsb' 52 4).toFin
/-- `a = w[51:48]`, the first source selector. -/
def fA (w : Command) : Fin 16 := (w.extractLsb' 48 4).toFin
/-- `b = w[47:44]`, the second source selector. -/
def fB (w : Command) : Fin 16 := (w.extractLsb' 44 4).toFin
/-- `n3 = w[47:36]`. -/
def fN3 (w : Command) : Nat := (w.extractLsb' 36 12).toNat
/-- `n2 = w[35:24]`. -/
def fN2 (w : Command) : Nat := (w.extractLsb' 24 12).toNat
/-- `n1 = w[23:12]`. -/
def fN1 (w : Command) : Nat := (w.extractLsb' 12 12).toNat
/-- `n0 = w[11:0]`. -/
def fN0 (w : Command) : Nat := (w.extractLsb' 0 12).toNat
/-- `imm32 = w[31:0]`. -/
def fImm32 (w : Command) : Nat := (w.extractLsb' 0 32).toNat
/-- `off = w[31:16]`. -/
def fOff (w : Command) : Nat := (w.extractLsb' 16 16).toNat
/-- `len = w[15:0]`. -/
def fLen (w : Command) : Nat := (w.extractLsb' 0 16).toNat
/-- `imm8 = w[7:0]`. -/
def fImm8 (w : Command) : Byte := w.extractLsb' 0 8

/-- A row of R93's opcode map: a word is this command exactly when `w & mask = mat`;
`build` reads the row's operands out of the word. -/
structure OpRow where
  mat : Command
  mask : Command
  build : Command → Instr

/-- ELI, format I, opcode 0x10 (R93, R140). -/
def rowEli : OpRow := ⟨0x1000000000000000#64, 0xFF0FFFFFFFFFFF00#64, fun w => .eli (fD w) (fImm8 w)⟩

/-- GFADD, format R, opcode 0x11 (R93, R141). -/
def rowGfadd : OpRow := ⟨0x1100000000000000#64, 0xFF000FFFFFFFFFFF#64, fun w => .gfadd (fD w) (fA w) (fB w)⟩

/-- GFSUB, format R, opcode 0x12 (R93, R142). -/
def rowGfsub : OpRow := ⟨0x1200000000000000#64, 0xFF000FFFFFFFFFFF#64, fun w => .gfsub (fD w) (fA w) (fB w)⟩

/-- GFMUL, format R, opcode 0x13 (R93, R143). -/
def rowGfmul : OpRow := ⟨0x1300000000000000#64, 0xFF000FFFFFFFFFFF#64, fun w => .gfmul (fD w) (fA w) (fB w)⟩

/-- GFDIV, format R, opcode 0x14 (R93, R144). -/
def rowGfdiv : OpRow := ⟨0x1400000000000000#64, 0xFF000FFFFFFFFFFF#64, fun w => .gfdiv (fD w) (fA w) (fB w)⟩

/-- GFEXP, format X, opcode 0x15 (R93, R145). -/
def rowGfexp : OpRow := ⟨0x1500000000000000#64, 0xFF00FFFF00000000#64, fun w => .gfexp (fD w) (fA w) (fImm32 w)⟩

/-- MZERO, format D2, opcode 0x20 (R93, R170). -/
def rowMzero : OpRow := ⟨0x2000000000000000#64, 0xFF0FFFFFFF000000#64, fun w => .mzero (fD w) (fN1 w) (fN0 w)⟩

/-- MIDENT, format D1, opcode 0x21 (R93, R171). -/
def rowMident : OpRow := ⟨0x2100000000000000#64, 0xFF0FFFFFFFFFF000#64, fun w => .mident (fD w) (fN0 w)⟩

/-- MGET, format DA2, opcode 0x22 (R93, R172). -/
def rowMget : OpRow := ⟨0x2200000000000000#64, 0xFF00FFFFFF000000#64, fun w => .mget (fD w) (fA w) (fN1 w) (fN0 w)⟩

/-- MSET, format DA2, opcode 0x23 (R93, R173). -/
def rowMset : OpRow := ⟨0x2300000000000000#64, 0xFF00FFFFFF000000#64, fun w => .mset (fD w) (fN1 w) (fN0 w) (fA w)⟩

/-- MMUL, format R, opcode 0x24 (R93, R174). -/
def rowMmul : OpRow := ⟨0x2400000000000000#64, 0xFF000FFFFFFFFFFF#64, fun w => .mmul (fD w) (fA w) (fB w)⟩

/-- MAUG, format R, opcode 0x25 (R93, R175). -/
def rowMaug : OpRow := ⟨0x2500000000000000#64, 0xFF000FFFFFFFFFFF#64, fun w => .maug (fD w) (fA w) (fB w)⟩

/-- MSUB, format DA4, opcode 0x26 (R93, R176). -/
def rowMsub : OpRow := ⟨0x2600000000000000#64, 0xFF00000000000000#64, fun w => .msub (fD w) (fA w) (fN3 w) (fN2 w) (fN1 w) (fN0 w)⟩

/-- MROW, format DA1, opcode 0x27 (R93, R177). -/
def rowMrow : OpRow := ⟨0x2700000000000000#64, 0xFF00FFFFFFFFF000#64, fun w => .mrow (fD w) (fA w) (fN0 w)⟩

/-- MSWAP, format D2, opcode 0x28 (R93, R178). -/
def rowMswap : OpRow := ⟨0x2800000000000000#64, 0xFF0FFFFFFF000000#64, fun w => .mswap (fD w) (fN1 w) (fN0 w)⟩

/-- MINV, format DA, opcode 0x29 (R93, R179). -/
def rowMinv : OpRow := ⟨0x2900000000000000#64, 0xFF00FFFFFFFFFFFF#64, fun w => .minv (fD w) (fA w)⟩

/-- CINIT, format N2, opcode 0x30 (R93, R201). -/
def rowCinit : OpRow := ⟨0x3000000000000000#64, 0xFFFFFFFFFF000000#64, fun w => .cinit (fN1 w) (fN0 w)⟩

/-- CENC, format OL, opcode 0x31 (R93, R206). -/
def rowCenc : OpRow := ⟨0x3100000000000000#64, 0xFFFFFFFF00000000#64, fun w => .cenc (fOff w) (fLen w)⟩

/-- CVFY, format OL, opcode 0x32 (R93, R207). -/
def rowCvfy : OpRow := ⟨0x3200000000000000#64, 0xFFFFFFFF00000000#64, fun w => .cvfy (fOff w) (fLen w)⟩

/-- CDEC, format OL, opcode 0x33 (R93, R208). -/
def rowCdec : OpRow := ⟨0x3300000000000000#64, 0xFFFFFFFF00000000#64, fun w => .cdec (fOff w) (fLen w)⟩

/-- CGEN, format D, opcode 0x34 (R93, R209). -/
def rowCgen : OpRow := ⟨0x3400000000000000#64, 0xFF0FFFFFFFFFFFFF#64, fun w => .cgen (fD w)⟩

/-- The opcode map of R93, in its order. -/
def opTable : List OpRow :=
  [rowEli, rowGfadd, rowGfsub, rowGfmul, rowGfdiv, rowGfexp]
  ++ [rowMzero, rowMident, rowMget, rowMset, rowMmul]
  ++ [rowMaug, rowMsub, rowMrow, rowMswap, rowMinv]
  ++ [rowCinit, rowCenc, rowCvfy, rowCdec, rowCgen]

/-- The word is the row's command (R93). -/
def OpRow.hits (row : OpRow) (w : Command) : Bool := w &&& row.mask == row.mat

/-- Why a word is no command (R94, R95). Both end with error `IllegalCommand`. -/
inductive Illegal where
  /-- `op` is none of the 21 opcodes (R95). -/
  | opcode (op : BitVec 8)
  /-- `op` is an opcode, and a reserved bit of its format is 1 (R94). -/
  | reservedBits (op : BitVec 8)
  deriving DecidableEq, Repr

/-- `op` is one of the 21 opcodes of R93. -/
def assigned (op : BitVec 8) : Bool := opTable.any fun row => fOp row.mat == op

/-- The name of the refusal of a word that hits no row. -/
def illegalName (w : Command) : Illegal :=
  if assigned (fOp w) then .reservedBits (fOp w) else .opcode (fOp w)

/-- Decode procedure (R101): the first row that hits, or `Illegal`. It depends on `w` alone. -/
def decode (w : Command) : Except Illegal Instr :=
  match opTable.find? (·.hits w) with
  | some row => .ok (row.build w)
  | none => .error (illegalName w)

/-- Eight bytes serialise a command word, little-endian: byte 0 is `w[7:0]`, byte 7 is `w[63:56]` (R66). -/
def wordOfBytes (b0 b1 b2 b3 b4 b5 b6 b7 : Byte) : Command :=
  b7 ++ b6 ++ b5 ++ b4 ++ b3 ++ b2 ++ b1 ++ b0

/-- The bytes of a command word, little-endian (R66). -/
def bytesOfWord (w : Command) : List Byte :=
  (List.range 8).map fun j => w.extractLsb' (8 * j) 8

/-- Four bytes serialise a 32-bit register value, little-endian likewise: byte 0 is `v[7:0]`, byte 3 is `v[31:24]` (R66). -/
def regOfBytes (b0 b1 b2 b3 : Byte) : RegWord := b3 ++ b2 ++ b1 ++ b0

/-- The bytes of a register value, little-endian (R66). -/
def bytesOfReg (v : RegWord) : List Byte :=
  (List.range 4).map fun j => v.extractLsb' (8 * j) 8

/-- Reading a serialised register value from a list of bytes: the value and the bytes after it, or `none` where fewer than four
bytes are left (R66). -/
def readRegBytes : List Byte → Option (RegWord × List Byte)
  | b0 :: b1 :: b2 :: b3 :: rest => some (regOfBytes b0 b1 b2 b3, rest)
  | _ => none

/-- Decoding a serialised command from a list of bytes: the command and the bytes after it, the named refusal of
an illegal word, or `none` where fewer than eight bytes are left. -/
def decodeBytes : List Byte → Option (Except Illegal (Instr × List Byte))
  | b0 :: b1 :: b2 :: b3 :: b4 :: b5 :: b6 :: b7 :: rest =>
    match decode (wordOfBytes b0 b1 b2 b3 b4 b5 b6 b7) with
    | .ok i => some (.ok (i, rest))
    | .error e => some (.error e)
  | _ => none

/-- The word of `nbits` bits `w`, every bit above `nbits` zero. -/
def tableWord (nbits w : Nat) : Command := BitVec.ofNat 64 (w % 2 ^ nbits)

/-- What the decoder reads from an instruction whose bits are `w` as spec/opcode_table.json numbers them
(one 64-bit word, bit 0 its least significant bit, R90). -/
def decodeTableWord (nbits w : Nat) : Option Instr :=
  match decode (tableWord nbits w) with
  | .ok i => some i
  | .error _ => none

/-! The encoder: the formats of R91 laid out from the most significant bit, every reserved bit zero (R94, R98). -/

/-- A selector's four bits. -/
def selBits (x : Fin 16) : BitVec 4 := BitVec.ofFin x

/-- Format `R`: `op`, `d`, `a`, `b`. -/
def fmtR (op : BitVec 8) (d a b : Fin 16) : Command := op ++ selBits d ++ selBits a ++ selBits b ++ 0#44
/-- Format `D2`: `op`, `d`, `n1`, `n0`. -/
def fmtD2 (op : BitVec 8) (d : Fin 16) (n1 n0 : Nat) : Command :=
  op ++ selBits d ++ 0#28 ++ BitVec.ofNat 12 n1 ++ BitVec.ofNat 12 n0
/-- Format `DA2`: `op`, `d`, `a`, `n1`, `n0`. -/
def fmtDA2 (op : BitVec 8) (d a : Fin 16) (n1 n0 : Nat) : Command :=
  op ++ selBits d ++ selBits a ++ 0#24 ++ BitVec.ofNat 12 n1 ++ BitVec.ofNat 12 n0
/-- Format `OL`: `op`, `off`, `len`. -/
def fmtOL (op : BitVec 8) (off len : Nat) : Command :=
  op ++ 0#24 ++ BitVec.ofNat 16 off ++ BitVec.ofNat 16 len

/-- The command word of an instruction (R91, R93). -/
def encode : Instr → Command
  | .eli ed imm => 0x10#8 ++ selBits ed ++ 0#44 ++ imm
  | .gfadd ed ea eb => fmtR 0x11#8 ed ea eb
  | .gfsub ed ea eb => fmtR 0x12#8 ed ea eb
  | .gfmul ed ea eb => fmtR 0x13#8 ed ea eb
  | .gfdiv ed ea eb => fmtR 0x14#8 ed ea eb
  | .gfexp ed ea n => 0x15#8 ++ selBits ed ++ selBits ea ++ 0#16 ++ BitVec.ofNat 32 n
  | .mzero bd rows cols => fmtD2 0x20#8 bd rows cols
  | .mident bd n => 0x21#8 ++ selBits bd ++ 0#40 ++ BitVec.ofNat 12 n
  | .mget ed ba r c => fmtDA2 0x22#8 ed ba r c
  | .mset bd r c ea => fmtDA2 0x23#8 bd ea r c
  | .mmul bd ba bb => fmtR 0x24#8 bd ba bb
  | .maug bd ba bb => fmtR 0x25#8 bd ba bb
  | .msub bd ba rmin cmin rmax cmax =>
    0x26#8 ++ selBits bd ++ selBits ba ++ BitVec.ofNat 12 rmin ++ BitVec.ofNat 12 cmin
      ++ BitVec.ofNat 12 rmax ++ BitVec.ofNat 12 cmax
  | .mrow bd ba r => 0x27#8 ++ selBits bd ++ selBits ba ++ 0#36 ++ BitVec.ofNat 12 r
  | .mswap bd r1 r2 => fmtD2 0x28#8 bd r1 r2
  | .minv bd ba => 0x29#8 ++ selBits bd ++ selBits ba ++ 0#48
  | .cinit k m => 0x30#8 ++ 0#32 ++ BitVec.ofNat 12 k ++ BitVec.ofNat 12 m
  | .cenc off len => fmtOL 0x31#8 off len
  | .cvfy off len => fmtOL 0x32#8 off len
  | .cdec off len => fmtOL 0x33#8 off len
  | .cgen bd => 0x34#8 ++ selBits bd ++ 0#52

/-- The assembler (R98): it refuses an operand that does not fit its field. -/
def assemble (i : Instr) : Option Command := if wellFormed i then some (encode i) else none

end Sys2Proof
end

