-- ==== Sys2Proof/Machine/State.lean ====
section
/-! DEFINITION. Everything the spec gives the RS-GF256 core to hold (10_state.md), what the outside world does to it
(20_memory.md R60), the ways a step can stop, and the state after reset (R45). -/

namespace Sys2Proof.Machine

/-- The ten error codes (60_exceptions.md R250). Codes 11 to 15 are never produced (93 U9). -/
inductive Error where
  | invalidArgument
  | indexOutOfRange
  | dimensionMismatch
  | notSquare
  | singular
  | divisionByZero
  | insufficientShards
  | illegalCommand
  | noCodec
  | capacity
  deriving DecidableEq, Repr

/-- A matrix: row count, column count and cells, row-major (41_matrix.md R160, 10_state.md R25).
`Mat.wf` (Machine/Mat.lean) says the cells have the stated shape. -/
structure Mat where
  rows : Nat
  cols : Nat
  cells : List (List Byte)
  deriving DecidableEq, Repr

/-- Shard memory (R48) as the list of its bytes that are not what an unlisted address reads as, keys rising.
The key of byte `(s, p)` is the model's own (log entry 6). -/
abbrev Memory := List Host.Cell

/-- One byte of shard memory a reset event leaves behind: shard, position, value. -/
structure ShardByte where
  s : BitVec 8
  p : BitVec 16
  v : Byte
  deriving DecidableEq, Repr

/-- What the outside world does next: a host transaction on one of the three ports (R60), leaving the step to
the engine (R71), or the external reset (R290). -/
inductive Event where
  /-- `Issue(w)` on the command port (R70). -/
  | issue (w : Command)
  /-- `RegRead(n)` on the register port (R72, R73). -/
  | regRead (n : BitVec 12)
  /-- `RegWrite(n, v)` on the register port (R72). -/
  | regWrite (n : BitVec 12) (v : RegWord)
  /-- `ShardRead(s, p)` on the shard port (R72). -/
  | shardRead (s : BitVec 8) (p : BitVec 16)
  /-- `ShardWrite(s, p, v)` on the shard port (R72). -/
  | shardWrite (s : BitVec 8) (p : BitVec 16) (v : Byte)
  /-- The host does nothing while the engine takes one step (R71, R76). -/
  | engine
  /-- Reset from outside (R290); `shard` is what shard memory holds afterwards: any contents at all (R45, R291). -/
  | reset (shard : List ShardByte)
  deriving DecidableEq, Repr

/-- What a host read returned. -/
inductive Reply where
  | reg (n : BitVec 12) (v : RegWord)
  | byte (s : BitVec 8) (p : BitVec 16) (v : Byte)
  deriving DecidableEq, Repr

/-- Ways the machine stops with a fault. The core itself has no traps (00_scope.md R10). -/
inductive Fault where
  /-- Raised by CENC, CVFY and CDEC in a state whose `K + M` exceeds the 256 shard buffers, so that the command names
  a buffer and a `SHLEN` that do not exist (R61, R62). No run reaches such a state (R31). SAFE: it only stops (log entry 7). -/
  | noSuchShard
  deriving DecidableEq, Repr

/-- Ways the model gives no meaning. -/
inductive Refusal where
  /-- Raised by `exec` for an instruction without a meaning in this model. SAFE. No arm answers with it. -/
  | notModelled (mnemonic : String)
  /-- Raised by `step` when the host does anything but read STATUS while `BUSY = 1`: the spec gives it no meaning and asks
  a model to refuse (70_reset_and_hazards.md R300, 93 U1). SAFE (log entry 4). -/
  | hostWhileBusy
  deriving DecidableEq, Repr

/-- The state of the machine (10_state.md): plain data. -/
structure State where
  /-- Element registers `e0` to `e15` (R20). -/
  e : Vector Byte Config.NE
  /-- Matrix banks `b0` to `b15` (R25). -/
  banks : Vector Mat Config.NB
  /-- `GVALID`, also `STATUS[1]` (R30). -/
  gvalid : Bool
  /-- `K`, the data shard count (R31). -/
  k : BitVec 9
  /-- `M`, the parity shard count (R31). -/
  m : BitVec 9
  /-- The generator store `G` (R32). -/
  g : Mat
  /-- `STATUS.BUSY` (R35). -/
  busy : Bool
  /-- `STATUS.VFY` (R35). -/
  vfy : Bool
  /-- `STATUS.ERR` (R35): `none` is code 0, success. -/
  err : Option Error
  /-- `SHCOUNT` (R38). -/
  shcount : BitVec 9
  /-- `SHLEN[s]` (R39). -/
  shlen : Vector (BitVec 16) Config.NSH
  /-- `PRESENT[s]` is bit `s` (R40). -/
  present : BitVec 256
  /-- Shard memory (R48). -/
  shard : Memory
  /-- `CMDREG` (R43). -/
  cmdreg : Command
  /-- The MODEL's own field: what the outside world does next, first event first (log entry 3). -/
  inputs : List Event
  /-- The MODEL's own field: what host reads returned, newest first (log entry 3). -/
  replies : List Reply
  deriving DecidableEq, Repr

/-- The state after reset (R45, R291). `SHARD` and `CMDREG` are unspecified there: the values here are the model's
(log entries 1 and 2), and so are the two lists of the model's own (log entry 3). -/
def State.reset : State where
  e := Vector.replicate 16 0#8
  banks := Vector.replicate 16 ⟨0, 0, []⟩
  gvalid := false
  k := 0#9
  m := 0#9
  g := ⟨0, 0, []⟩
  busy := false
  vfy := false
  err := none
  shcount := 0#9
  shlen := Vector.replicate 256 0#16
  present := 0#256
  shard := []
  cmdreg := 0#64
  inputs := []
  replies := []

end Sys2Proof.Machine
end

