-- ==== Sys2Proof/Machine/Gf.lean ====
section
/-! DEFINITION. The pure field functions of 40_field.md section 2 (R127 to R131), which every unit uses. -/

namespace Sys2Proof.Machine

/-- `gf_add(a, b)` (R127). -/
def gfAdd (a b : Byte) : Byte := a ^^^ b

/-- `gf_sub(a, b)` (R128): the same function. -/
def gfSub (a b : Byte) : Byte := a ^^^ b

/-- `gf_mul(a, b)` (R129). -/
def gfMul (a b : Byte) : Byte :=
  if a = 0 ∨ b = 0 then 0 else ALOG (LOG a + LOG b)

/-- The value of `gf_div(a, b)` for a nonzero divisor (R130). Callers have checked the divisor (log entry 8). -/
def gfQuot (a b : Byte) : Byte :=
  if a = 0 then 0 else ALOG ((LOG a + 255 - LOG b) % 255)

/-- `gf_div(a, b)` (R130): the divisor is tested first. -/
def gfDiv (a b : Byte) : Except Error Byte :=
  if b = 0 then .error .divisionByZero else .ok (gfQuot a b)

/-- `gf_exp(a, n)` (R131): the exponent is tested first, and the product is formed on the naturals. -/
def gfExp (a : Byte) (n : Nat) : Byte :=
  if n = 0 then 1 else if a = 0 then 0 else ALOG (LOG a * n % 255)

/-- `XOR over i in [0, n) of f(i)` (00_scope.md R13): 0 when the range is empty. -/
def xorOver : Nat → (Nat → Byte) → Byte
  | 0, _ => 0
  | n + 1, f => gfAdd (xorOver n f) (f n)

end Sys2Proof.Machine
end

