-- ==== Sys2Proof/Machine/Mat.lean ====
section
/-! DEFINITION. Matrices and the matrix functions (41_matrix.md R160 to R162, 42_codec.md R202, R203). -/

namespace Sys2Proof.Machine

/-- The cells have the stated shape: `rows` rows of `cols` bytes (R160). -/
def Mat.wf (A : Mat) : Bool := A.cells.length == A.rows && A.cells.all (·.length == A.cols)

/-- The dimensions a bank can hold (10_state.md R25, R26). -/
def Mat.fits (A : Mat) : Bool := decide (A.rows ≤ Config.MAXR) && decide (A.cols ≤ Config.MAXC)

/-- The matrix of no rows and no columns. -/
def Mat.empty : Mat := ⟨0, 0, []⟩

/-- Row `r`, as a list of cells. -/
def Mat.row (A : Mat) (r : Nat) : List Byte := A.cells.getD r []

/-- `CELL[r][c]` for `r < rows`, `c < cols`. Callers have checked the indices (log entry 8). -/
def Mat.get (A : Mat) (r c : Nat) : Byte := (A.row r).getD c 0

/-- The matrix `(R, C, F)` of the assignment `bank[b] <- (R, C, F)` (00_scope.md R14). -/
def Mat.build (R C : Nat) (F : Nat → Nat → Byte) : Mat :=
  ⟨R, C, (List.range R).map fun r => (List.range C).map (F r)⟩

/-- One cell replaced, dimensions and all other cells kept. -/
def Mat.setCell (A : Mat) (r c : Nat) (v : Byte) : Mat :=
  { A with cells := A.cells.set r ((A.row r).set c v) }

/-- Two rows exchanged, dimensions and all other rows kept. -/
def Mat.swapRows (A : Mat) (r1 r2 : Nat) : Mat :=
  { A with cells := (A.cells.set r1 (A.row r2)).set r2 (A.row r1) }

/-- `zero(rows, cols)`. -/
def Mat.zero (R C : Nat) : Mat := Mat.build R C fun _ _ => 0

/-- `identity(n)`. -/
def Mat.ident (n : Nat) : Mat := Mat.build n n fun r c => if r = c then 1 else 0

/-- `mat_mul(A, B)` (R161). -/
def Mat.mul (A B : Mat) : Mat :=
  Mat.build A.rows B.cols fun r c => xorOver A.cols fun i => gfMul (A.get r i) (B.get i c)

/-- Horizontal concatenation (R175). -/
def Mat.augment (A B : Mat) : Mat :=
  Mat.build A.rows (A.cols + B.cols) fun r c => if c < A.cols then A.get r c else B.get r (c - A.cols)

/-- Rows `rmin <= r < rmax` and columns `cmin <= c < cmax`, in order (R176). -/
def Mat.sub (A : Mat) (rmin cmin rmax cmax : Nat) : Mat :=
  Mat.build (rmax - rmin) (cmax - cmin) fun r c => A.get (rmin + r) (cmin + c)

/-! Gauss-Jordan elimination (R162), on a scratch matrix `W` of shape `n x 2n`. -/

/-- The smallest row `r` with `c <= r < n` whose entry in column `c` is not 0: row `c` itself when the pivot is not 0, else
the row the pivot search picks (R162, D13). -/
def pivotRow (W : Mat) (n c : Nat) : Option Nat :=
  (List.range' c (n - c)).find? fun r => W.get r c != 0

/-- Every entry of row `c` divided by its pivot, which is not 0 (R162). -/
def scaleRow (W : Mat) (c : Nat) : Mat :=
  { W with cells := W.cells.set c ((W.row c).map fun x => gfQuot x (W.get c c)) }

/-- A row less `f` times the pivot row (R162). -/
def rowMinus (row : List Byte) (f : Byte) (pivot : List Byte) : List Byte :=
  List.zipWith (fun x y => gfSub x (gfMul f y)) row pivot

/-- Column `c` eliminated in every row that `which` names: `f` is read before the row is changed (R162). -/
def eliminate (W : Mat) (c : Nat) (which : Nat → Bool) : Mat :=
  { W with cells := (List.range W.rows).map fun r =>
      if which r then rowMinus (W.row r) (W.get r c) (W.row c) else W.row r }

/-- The forward pass at column `c`: swap, scale, eliminate below; `none` is `Singular` (R162). -/
def forwardStep (n : Nat) (W : Mat) (c : Nat) : Option Mat :=
  match pivotRow W n c with
  | none => none
  | some r => some (eliminate (scaleRow (W.swapRows c r) c) c fun i => decide (c < i))

/-- The forward pass over the columns `0..c-1`. -/
def forwardPass (n : Nat) (W : Mat) : (c : Nat) → Option Mat
  | 0 => some W
  | c + 1 =>
    match forwardPass n W c with
    | none => none
    | some V => forwardStep n V c

/-- The backward pass over the columns `c-1` down to 0: eliminate above (R162). -/
def backwardPass (W : Mat) : (c : Nat) → Mat
  | 0 => W
  | c + 1 => backwardPass (eliminate W c fun i => decide (i < c)) c

/-- `mat_inv(A)` of a square matrix (R162); `none` is `Singular`. -/
def matInv (A : Mat) : Option Mat :=
  match forwardPass A.rows (A.augment (Mat.ident A.rows)) A.rows with
  | none => none
  | some W => some ((backwardPass W A.rows).sub 0 A.rows A.rows (2 * A.rows))

/-! The generator matrix (42_codec.md R202, R203). -/

/-- The Vandermonde matrix `V[r][c] = gf_exp(r, c)`, the row index used as a field element (R202). -/
def vandermonde (n k : Nat) : Mat := Mat.build n k fun r c => gfExp (BitVec.ofNat 8 r) c

/-- The top `k x k` block of the Vandermonde matrix (R203). -/
def vanderTop (n k : Nat) : Mat := (vandermonde n k).sub 0 0 k k

/-- `G = V x T^-1` for `k` data and `m` parity shards (R203); `none` is `Singular`. -/
def generator (k m : Nat) : Option Mat :=
  match matInv (vanderTop (k + m) k) with
  | none => none
  | some Ti => some ((vandermonde (k + m) k).mul Ti)

end Sys2Proof.Machine
end

