-- ==== Sys2Proof/Machine/Flags.lean ====
section
/-! DEFINITION. The codes of STATUS.ERR, and STATUS, CODEC and POLY as the words the host reads (10_state.md R35 to R37;
60_exceptions.md R250). There are no arithmetic condition codes (R46). -/

namespace Sys2Proof.Machine

/-- The number of an error (R250). -/
def Error.code : Error → BitVec 4
  | .invalidArgument => 1
  | .indexOutOfRange => 2
  | .dimensionMismatch => 3
  | .notSquare => 4
  | .singular => 5
  | .divisionByZero => 6
  | .insufficientShards => 7
  | .illegalCommand => 8
  | .noCodec => 9
  | .capacity => 10

/-- `STATUS.ERR` (R35): 0 is success, otherwise the code of the error. -/
def errField : Option Error → BitVec 4
  | none => 0
  | some x => x.code

/-- `STATUS` (R35): BUSY in bit 0, GVALID in bit 1, VFY in bit 2, bit 3 zero, ERR in bits 7:4, bits 31:8 zero. -/
def State.status (s : State) : RegWord :=
  0#24 ++ errField s.err ++ 0#1 ++ BitVec.ofBool s.vfy ++ BitVec.ofBool s.gvalid ++ BitVec.ofBool s.busy

/-- `CODEC` (R36): K in bits 8:0, M in bits 24:16, the others zero. -/
def State.codec (s : State) : RegWord := 0#7 ++ s.m ++ 0#7 ++ s.k

/-- `POLY` (R37): the constant in bits 7:0, the others zero. -/
def polyWord : RegWord := 0#24 ++ Config.POLY

end Sys2Proof.Machine
end

