-- ==== Sys2Proof/Machine/Operands.lean ====
section
/-! DEFINITION. The operand forms of the commands: element registers, banks, the shard descriptor and the codec's shape. Every
read and write of a register goes through these. -/

namespace Sys2Proof.Machine

/-- `e[i]` (R14, R20): no register is hardwired. -/
def State.elem (s : State) (i : EReg) : Byte := s.e[i]

/-- `e[i] <- v` (R14). -/
def State.setElem (s : State) (i : EReg) (v : Byte) : State := { s with e := s.e.set i v }

/-- The matrix of bank `b` (R25). -/
def State.bank (s : State) (b : Bank) : Mat := s.banks[b]

/-- `bank[b] <- A`, the bank replaced whole (R14). -/
def State.setBank (s : State) (b : Bank) (A : Mat) : State := { s with banks := s.banks.set b A }

/-- `K` as a number (R31). -/
def State.K (s : State) : Nat := s.k.toNat

/-- `M` as a number (R31). -/
def State.M (s : State) : Nat := s.m.toNat

/-- `N = K + M`, which is no register of its own (R31). -/
def State.N (s : State) : Nat := s.K + s.M

/-- `SHLEN[t]` for `t < 256` (R39). -/
def State.shlenAt (s : State) (t : Nat) : Nat := (s.shlen[t]?.getD 0#16).toNat

/-- `PRESENT[t]` for `t < 256` (R40). -/
def State.presentAt (s : State) (t : Nat) : Bool := s.present.getLsbD t

/-- `PROW[i][c] = G[K + i][c]` (R33). -/
def State.prow (s : State) (i c : Nat) : Byte := s.g.get (s.K + i) c

end Sys2Proof.Machine
end

