-- ==== Sys2Proof/Machine/Ops.lean ====
section
/-! DEFINITION. The shared operations: shard memory, the two ways a command ends, shard-set validation, the parity
function and the writes of the codec commands. -/

namespace Sys2Proof.Machine

/-- What a command, and a step, answers. -/
abbrev Result := Host.Outcome State Fault Refusal

/-! Shard memory (10_state.md R48, 20_memory.md R62, R63). -/

/-- What a byte of shard memory that the list does not hold reads as. The spec gives no value after reset (R45): DESIGN CHOICE
(log entry 1). -/
def Memory.unlisted : Byte := 0#8

/-- The number of bytes of shard memory, `NSH * SHCAP` (R62). -/
def Memory.size : Nat := 16777216

/-- The key of byte `(s, p)` in the list: the model's own (R63 gives no linear address; log entry 6). -/
def shardKey (s p : Nat) : Nat := s * 65536 + p

/-- The byte under a key. -/
def Memory.read : Memory → Nat → Byte
  | [], _ => Memory.unlisted
  | (a, v) :: rest, x => if a = x then v else Memory.read rest x

/-- The byte under a key replaced, the canonical form kept. -/
def Memory.write : Memory → Nat → Byte → Memory
  | [], x, v => if v = Memory.unlisted then [] else [(x, v)]
  | (a, u) :: rest, x, v =>
    if x < a then (if v = Memory.unlisted then (a, u) :: rest else (x, v) :: (a, u) :: rest)
    else if x = a then (if v = Memory.unlisted then rest else (x, v) :: rest)
    else (a, u) :: Memory.write rest x v

/-- The canonical form from key `lo` on: keys strictly rising and inside the memory, no byte that reads as unlisted. -/
def Memory.wfFrom : Nat → Memory → Bool
  | _, [] => true
  | lo, (a, v) :: rest =>
    decide (lo ≤ a) && decide (a < Memory.size) && v != Memory.unlisted && Memory.wfFrom (a + 1) rest

/-- The canonical form of shard memory. -/
def Memory.wf (mem : Memory) : Bool := Memory.wfFrom 0 mem

/-- `MemRead((s, p), 1)` (R14). -/
def memRead (mem : Memory) (s p : Nat) : Byte := Memory.read mem (shardKey s p)

/-- `MemWrite((s, p), 1, v)` (R14). -/
def memWrite (mem : Memory) (s p : Nat) (v : Byte) : Memory := Memory.write mem (shardKey s p) v

/-- Shard memory that holds exactly the listed bytes, a later one over an earlier one (R291). -/
def shardContents (bytes : List ShardByte) : Memory :=
  bytes.foldl (fun mem b => memWrite mem b.s.toNat b.p.toNat b.v) []

/-- `MemWrite((s, p), 1, f p)` for every `p` in `[off, off + len)`. -/
def writeRange (mem : Memory) (s off : Nat) (f : Nat → Byte) : (len : Nat) → Memory
  | 0 => mem
  | len + 1 => memWrite (writeRange mem s off f len) s (off + len) (f (off + len))

/-- For every `i < count` that `which` names, in order, the bytes `[off, off + len)` of shard `base + i` written with `f mem i p`,
`mem` being the memory before that shard is written (log entry 10). -/
def writeShards (base : Nat) (which : Nat → Bool) (f : Memory → Nat → Nat → Byte) (off len : Nat) :
    (count : Nat) → Memory → Memory
  | 0, mem => mem
  | i + 1, mem =>
    let mem' := writeShards base which f off len i mem
    if which i then writeRange mem' (base + i) off (f mem' i) len else mem'

/-! How a command ends. -/

/-- The end of the execute step (R71): `STATUS.ERR` takes the outcome and `STATUS.BUSY <- 0`. -/
def State.finish (s : State) (x : Option Error) : State := { s with err := x, busy := false }

/-- Error completion, the only exception there is (60_exceptions.md R252): `STATUS.ERR <- code(E)`, `STATUS.BUSY <- 0`, and
nothing else changes; nothing is saved and there is nothing to return to (R256). -/
def raise (x : Error) (s : State) : Result := .next (s.finish (some x))

/-- Completion without `raise` (00_scope.md R15, R71): `STATUS.ERR <- 0`, `STATUS.BUSY <- 0`. -/
def succeed (s : State) : Result := .next (s.finish none)

/-! The codec's shared operations. -/

/-- The three `InvalidArgument` conditions of `VALID(off, len)` hold none (42_codec.md R204): the count is `N`, all lengths equal
`SHLEN[0]`, and the range ends inside it. -/
def shardSetOk (off len : Nat) (s : State) : Bool :=
  s.shcount.toNat == s.N && (List.range s.N).all (fun t => s.shlenAt t == s.shlenAt 0) &&
    decide (off + len ≤ s.shlenAt 0)

/-- `VALID(off, len)`, then the rest of the command (R204): `NoCodec` before everything else. -/
def withValid (off len : Nat) (s : State) (body : Result) : Result :=
  if s.gvalid = false then raise .noCodec s
  else if Config.NSH < s.N then .fault .noSuchShard
  else if shardSetOk off len s = false then raise .invalidArgument s
  else body

/-- `PAR(i, p)` (R205): row `k + i` of `g` times the column of byte `p` of the `k` data shards. -/
def parity (g : Mat) (k : Nat) (mem : Memory) (i p : Nat) : Byte :=
  xorOver k fun c => gfMul (g.get (k + i) c) (memRead mem c p)

/-- The present shards among `0..n-1`, ascending (R208). -/
def presentShards (s : State) (n : Nat) : List Nat := (List.range n).filter fun t => s.presentAt t

/-- `S[j][c] = G[sel[j]][c]` (R208). -/
def selectedRows (g : Mat) (k : Nat) (sel : List Nat) : Mat :=
  Mat.build k k fun j c => g.get (sel.getD j 0) c

/-- One reconstructed data byte (R208 step 5): row `i` of `D` times byte `p` of the selected shards. -/
def decodedByte (D : Mat) (k : Nat) (sel : List Nat) (mem : Memory) (i p : Nat) : Byte :=
  xorOver k fun c => gfMul (D.get i c) (memRead mem (sel.getD c 0) p)

end Sys2Proof.Machine
end

