-- ==== Sys2Proof/Machine/CodecUnit.lean ====
section
/-! DEFINITION. The commands of the codec family (42_codec.md R201, R206 to R209). -/

namespace Sys2Proof.Machine

/-- CINIT (R201): the codec is replaced whole, or left as it is on an error. -/
def execCinit (k m : Nat) (s : State) : Result :=
  if k = 0 ∨ m = 0 ∨ Config.NMAX < k + m then raise .invalidArgument s
  else
    match generator k m with
    | none => raise .singular s
    | some G =>
      succeed { s with gvalid := true, k := BitVec.ofNat 9 k, m := BitVec.ofNat 9 m, g := G }

/-- CENC (R206): the bytes in range of every parity shard. -/
def execCenc (off len : Nat) (s : State) : Result :=
  withValid off len s <|
    succeed { s with shard := writeShards s.K (fun _ => true) (parity s.g s.K) off len s.M s.shard }

/-- Every parity byte in range is what `PAR` gives (R207). -/
def parityOk (off len : Nat) (s : State) : Bool :=
  (List.range s.M).all fun i => (List.range len).all fun j =>
    memRead s.shard (s.K + i) (off + j) == parity s.g s.K s.shard i (off + j)

/-- CVFY (R207): the result goes to `STATUS.VFY`; a false result is a success. -/
def execCvfy (off len : Nat) (s : State) : Result :=
  withValid off len s <| succeed { s with vfy := parityOk off len s }

/-- Steps 5 and 6 of CDEC (R208): the absent data shards from the selected present ones, then the absent parity shards from
the completed data shards. -/
def reconstruct (D : Mat) (sel : List Nat) (off len : Nat) (s : State) : Memory :=
  writeShards s.K (fun i => !s.presentAt (s.K + i)) (parity s.g s.K) off len s.M
    (writeShards 0 (fun i => !s.presentAt i) (decodedByte D s.K sel) off len s.K s.shard)

/-- CDEC (R208): validation first (D20), then the count, then the inversion; every `raise` precedes the first write. -/
def execCdec (off len : Nat) (s : State) : Result :=
  withValid off len s <|
    let there := presentShards s s.N
    if there.length = s.N then succeed s
    else if there.length < s.K then raise .insufficientShards s
    else
      match matInv (selectedRows s.g s.K (there.take s.K)) with
      | none => raise .singular s
      | some D => succeed { s with shard := reconstruct D (there.take s.K) off len s }

/-- CGEN (R209): the generator matrix copied into a bank. -/
def execCgen (bd : Bank) (s : State) : Result :=
  if s.gvalid = false then raise .noCodec s
  else succeed (s.setBank bd (Mat.build s.N s.K s.g.get))

end Sys2Proof.Machine
end

