-- ==== Sys2Proof/Machine/FieldUnit.lean ====
section
/-! DEFINITION. The commands of the field family (40_field.md R140 to R145). -/

namespace Sys2Proof.Machine

/-- ELI (R140): `e[d] <- imm8`. -/
def execEli (ed : EReg) (imm : Byte) (s : State) : Result := succeed (s.setElem ed imm)

/-- GFADD (R141): `e[d] <- gf_add(e[a], e[b])`. -/
def execGfadd (ed ea eb : EReg) (s : State) : Result :=
  succeed (s.setElem ed (gfAdd (s.elem ea) (s.elem eb)))

/-- GFSUB (R142): `e[d] <- gf_sub(e[a], e[b])`. -/
def execGfsub (ed ea eb : EReg) (s : State) : Result :=
  succeed (s.setElem ed (gfSub (s.elem ea) (s.elem eb)))

/-- GFMUL (R143): `e[d] <- gf_mul(e[a], e[b])`. -/
def execGfmul (ed ea eb : EReg) (s : State) : Result :=
  succeed (s.setElem ed (gfMul (s.elem ea) (s.elem eb)))

/-- GFDIV (R144): `e[d] <- gf_div(e[a], e[b])`, which may raise `DivisionByZero`. -/
def execGfdiv (ed ea eb : EReg) (s : State) : Result :=
  match gfDiv (s.elem ea) (s.elem eb) with
  | .ok v => succeed (s.setElem ed v)
  | .error x => raise x s

/-- GFEXP (R145): `e[d] <- gf_exp(e[a], imm32)`. -/
def execGfexp (ed ea : EReg) (n : Nat) (s : State) : Result :=
  succeed (s.setElem ed (gfExp (s.elem ea) n))

end Sys2Proof.Machine
end

