-- ==== Sys2Proof/Machine/MatrixUnit.lean ====
section
/-! DEFINITION. The commands of the matrix family (41_matrix.md R170 to R180). Every new matrix is computed from the state before
the command and then installed (R180). -/

namespace Sys2Proof.Machine

/-- MZERO (R170). -/
def execMzero (bd : Bank) (rows cols : Nat) (s : State) : Result :=
  if Config.MAXR < rows ∨ Config.MAXC < cols then raise .capacity s
  else succeed (s.setBank bd (Mat.zero rows cols))

/-- MIDENT (R171). -/
def execMident (bd : Bank) (n : Nat) (s : State) : Result :=
  if Config.MAXR < n then raise .capacity s
  else succeed (s.setBank bd (Mat.ident n))

/-- MGET (R172). -/
def execMget (ed : EReg) (ba : Bank) (r c : Nat) (s : State) : Result :=
  if (s.bank ba).rows ≤ r ∨ (s.bank ba).cols ≤ c then raise .indexOutOfRange s
  else succeed (s.setElem ed ((s.bank ba).get r c))

/-- MSET (R173). -/
def execMset (bd : Bank) (r c : Nat) (ea : EReg) (s : State) : Result :=
  if (s.bank bd).rows ≤ r ∨ (s.bank bd).cols ≤ c then raise .indexOutOfRange s
  else succeed (s.setBank bd ((s.bank bd).setCell r c (s.elem ea)))

/-- MMUL (R174). -/
def execMmul (bd ba bb : Bank) (s : State) : Result :=
  if (s.bank ba).cols ≠ (s.bank bb).rows then raise .dimensionMismatch s
  else succeed (s.setBank bd ((s.bank ba).mul (s.bank bb)))

/-- MAUG (R175): the shape is checked before the capacity (R255). -/
def execMaug (bd ba bb : Bank) (s : State) : Result :=
  if (s.bank ba).rows ≠ (s.bank bb).rows then raise .dimensionMismatch s
  else if Config.MAXC < (s.bank ba).cols + (s.bank bb).cols then raise .capacity s
  else succeed (s.setBank bd ((s.bank ba).augment (s.bank bb)))

/-- MSUB (R176): the range is never clamped. -/
def execMsub (bd ba : Bank) (rmin cmin rmax cmax : Nat) (s : State) : Result :=
  if rmin ≤ rmax ∧ rmax ≤ (s.bank ba).rows ∧ cmin ≤ cmax ∧ cmax ≤ (s.bank ba).cols then
    succeed (s.setBank bd ((s.bank ba).sub rmin cmin rmax cmax))
  else raise .indexOutOfRange s

/-- MROW (R177): the row is delivered as a `1 x COLS[a]` matrix. -/
def execMrow (bd ba : Bank) (r : Nat) (s : State) : Result :=
  if (s.bank ba).rows ≤ r then raise .indexOutOfRange s
  else succeed (s.setBank bd (Mat.build 1 (s.bank ba).cols fun _ c => (s.bank ba).get r c))

/-- MSWAP (R178). -/
def execMswap (bd : Bank) (r1 r2 : Nat) (s : State) : Result :=
  if (s.bank bd).rows ≤ r1 ∨ (s.bank bd).rows ≤ r2 then raise .indexOutOfRange s
  else succeed (s.setBank bd ((s.bank bd).swapRows r1 r2))

/-- MINV (R179): `NotSquare` is checked before `Singular` (R255). -/
def execMinv (bd ba : Bank) (s : State) : Result :=
  if (s.bank ba).rows ≠ (s.bank ba).cols then raise .notSquare s
  else
    match matInv (s.bank ba) with
    | none => raise .singular s
    | some X => succeed (s.setBank bd X)

end Sys2Proof.Machine
end

