-- ==== Sys2Proof/Machine/Dispatch.lean ====
section
/-! DEFINITION. The meaning of every command, one arm per constructor. -/

namespace Sys2Proof.Machine

def exec (i : Instr) (s : State) : Host.Outcome State Fault Refusal :=
  match i with
  -- field unit
  | .eli ed imm => Sys2Proof.Machine.execEli ed imm s
  | .gfadd ed ea eb => Sys2Proof.Machine.execGfadd ed ea eb s
  | .gfsub ed ea eb => Sys2Proof.Machine.execGfsub ed ea eb s
  | .gfmul ed ea eb => Sys2Proof.Machine.execGfmul ed ea eb s
  | .gfdiv ed ea eb => Sys2Proof.Machine.execGfdiv ed ea eb s
  | .gfexp ed ea n => Sys2Proof.Machine.execGfexp ed ea n s
  -- matrix unit
  | .mzero bd rows cols => Sys2Proof.Machine.execMzero bd rows cols s
  | .mident bd n => Sys2Proof.Machine.execMident bd n s
  | .mget ed ba r c => Sys2Proof.Machine.execMget ed ba r c s
  | .mset bd r c ea => Sys2Proof.Machine.execMset bd r c ea s
  | .mmul bd ba bb => Sys2Proof.Machine.execMmul bd ba bb s
  | .maug bd ba bb => Sys2Proof.Machine.execMaug bd ba bb s
  | .msub bd ba rmin cmin rmax cmax => Sys2Proof.Machine.execMsub bd ba rmin cmin rmax cmax s
  | .mrow bd ba r => Sys2Proof.Machine.execMrow bd ba r s
  | .mswap bd r1 r2 => Sys2Proof.Machine.execMswap bd r1 r2 s
  | .minv bd ba => Sys2Proof.Machine.execMinv bd ba s
  -- codec unit
  | .cinit k m => Sys2Proof.Machine.execCinit k m s
  | .cenc off len => Sys2Proof.Machine.execCenc off len s
  | .cvfy off len => Sys2Proof.Machine.execCvfy off len s
  | .cdec off len => Sys2Proof.Machine.execCdec off len s
  | .cgen bd => Sys2Proof.Machine.execCgen bd s

end Sys2Proof.Machine
end

