-- ==== Sys2Proof/Machine/Ports.lean ====
section
/-! DEFINITION. The host's side: the transactions of the three ports (20_memory.md R60, R70, R72; register map 10_state.md R41),
the external reset (70_reset_and_hazards.md R290), and the host directives of 30_encoding.md R99. -/

namespace Sys2Proof.Machine

/-- `RegRead(n)` (R41): the register map. It leaves all state unchanged (R68). -/
def regRead (s : State) (n : BitVec 12) : RegWord :=
  let x := n.toNat
  if x = 0x000 then s.status
  else if x = 0x001 then s.codec
  else if x = 0x002 then polyWord
  else if x = 0x003 then 0#23 ++ s.shcount
  else if 0x010 ≤ x ∧ x ≤ 0x01F then 0#24 ++ s.elem (Fin.ofNat 16 (x - 0x010))
  else if 0x020 ≤ x ∧ x ≤ 0x027 then s.present.extractLsb' (32 * (x - 0x020)) 32
  else if 0x100 ≤ x ∧ x ≤ 0x1FF then BitVec.ofNat 32 (s.shlenAt (x - 0x100))
  else 0#32

/-- The eight PRESENT registers with register `i` replaced (R40). -/
def setPresentWord (present : BitVec 256) (i : Nat) (v : RegWord) : BitVec 256 :=
  (present &&& ~~~((0xFFFFFFFF#256) <<< (32 * i))) ||| ((v.setWidth 256) <<< (32 * i))

/-- `RegWrite(n, v)` (R72): a read/write register takes the writable bits of `v` (R38 to R40); any other ignores the write
(R22, R35 to R37, R42). -/
def regWrite (n : BitVec 12) (v : RegWord) (s : State) : State :=
  let x := n.toNat
  if x = 0x003 then { s with shcount := v.extractLsb' 0 9 }
  else if 0x020 ≤ x ∧ x ≤ 0x027 then { s with present := setPresentWord s.present (x - 0x020) v }
  else if 0x100 ≤ x ∧ x ≤ 0x1FF then
    { s with shlen := s.shlen.setIfInBounds (x - 0x100) (v.extractLsb' 0 16) }
  else s

/-- `ShardRead(s, p)` (R72). -/
def shardRead (s : State) (sh : BitVec 8) (p : BitVec 16) : Byte := memRead s.shard sh.toNat p.toNat

/-- `ShardWrite(s, p, v)` (R72). -/
def shardWrite (sh : BitVec 8) (p : BitVec 16) (v : Byte) (s : State) : State :=
  { s with shard := memWrite s.shard sh.toNat p.toNat v }

/-- `Issue(w)` (R70): `CMDREG <- w`, `BUSY <- 1`, nothing else. -/
def issue (w : Command) (s : State) : State := { s with cmdreg := w, busy := true }

/-- What a host read returned, kept for the host (log entry 3). -/
def reply (r : Reply) (s : State) : State := { s with replies := r :: s.replies }

/-- The reset event (R290, R291): every piece of the core's state at its value of R45, shard memory holding `contents`; the host's
own lists stay (log entry 12). -/
def resetEvent (contents : List ShardByte) (s : State) : State :=
  { State.reset with shard := shardContents contents, inputs := s.inputs, replies := s.replies }

/-- The only transaction the host may make while `BUSY = 1` (R73): `RegRead(0x000)`. -/
def isPoll : Event → Bool
  | .regRead n => n == 0x000#12
  | _ => false

/-- A host transaction on one of the three ports, while the core is idle (R70, R72), or the poll while it is busy (R73). -/
def hostStep (v : Event) (s : State) : State :=
  match v with
  | .issue w => issue w s
  | .regRead n => reply (.reg n (regRead s n)) s
  | .regWrite n x => regWrite n x s
  | .shardRead sh p => reply (.byte sh p (shardRead s sh p)) s
  | .shardWrite sh p x => shardWrite sh p x s
  | .engine => s
  | .reset contents => resetEvent contents s

/-! Host directives (R99), performed while the engine is idle. -/

/-- The host directives of R99 and a command line of R98. -/
inductive Directive where
  | shcount (n : Nat)
  | shlen (s n : Nat)
  | present (s : Nat) (v : Bool)
  | shard (s p : Nat) (bytes : List Byte)
  | word (w : Command)
  deriving DecidableEq, Repr

/-- The value `.present s, v` writes back: the register read, with bit `s & 31` set to `v` (R99). -/
def presentWordWith (old : RegWord) (s : Nat) (v : Bool) : RegWord :=
  if v then old ||| ((1#32) <<< (s % 32)) else old &&& ~~~((1#32) <<< (s % 32))

/-- The host transactions a directive stands for, in program order (R99); `.present` reads the register it modifies. -/
def Directive.events (d : Directive) (s : State) : List Event :=
  match d with
  | .shcount n => [.regWrite 0x003#12 (BitVec.ofNat 32 n)]
  | .shlen t n => [.regWrite (BitVec.ofNat 12 (0x100 + t)) (BitVec.ofNat 32 n)]
  | .present t v =>
    let n := BitVec.ofNat 12 (0x020 + t / 32)
    [.regRead n, .regWrite n (presentWordWith (regRead s n) t v)]
  | .shard t p bytes => bytes.zipIdx.map fun b =>
    .shardWrite (BitVec.ofNat 8 t) (BitVec.ofNat 16 (p + b.2)) b.1
  | .word w => [.issue w, .engine, .regRead 0x000#12]

end Sys2Proof.Machine
end

