-- ==== Sys2Proof/Machine/Step.lean ====
section
/-! DEFINITION. One step of the machine (20_memory.md R70 to R74, R76). -/

namespace Sys2Proof.Machine

/-- The execute step of the engine (R71): `CMDREG` is decoded and the command performed, or `IllegalCommand` raised before any
command rule runs (R94, R95, R101). -/
def executeStep (s : State) : Host.Outcome State Fault Refusal :=
  match decode s.cmdreg with
  | .ok i => exec i s
  | .error _ => raise .illegalCommand s

/-- One step. The first event of `inputs` says who moves; with no event left, the engine executes a latched command (R76) and an idle
core stays as it is (R258). While `BUSY = 1` every host transaction but the poll is refused (R300, R73); reset may come at any time (R290). -/
def step (s : State) : Host.Outcome State Fault Refusal :=
  match s.inputs with
  | [] => if s.busy then executeStep s else .next s
  | .engine :: rest => if s.busy then executeStep { s with inputs := rest } else .next { s with inputs := rest }
  | .reset contents :: rest => .next (resetEvent contents { s with inputs := rest })
  | v :: rest =>
    if s.busy && !isPoll v then .refused .hostWhileBusy
    else .next (hostStep v { s with inputs := rest })

/-- The state in which the host has just issued the command word whose `nbits` bits are `w`, and the engine moves next (R70):
`step` decodes and executes exactly it (log entry 9). -/
def State.withFetchWord (s : State) (nbits w : Nat) : State :=
  { s with cmdreg := tableWord nbits w, busy := true, inputs := .engine :: s.inputs }

end Sys2Proof.Machine
end

