-- ==== Sys2Proof/Safety.lean ====
section
/-! DEFINITION. What a good state and a good run are, in the terms the claims use. -/

namespace Sys2Proof.Machine

/-- A bank holds a matrix of the stated shape within the bank's bounds (10_state.md R25, R26). -/
def bankOk (A : Mat) : Bool := A.wf && A.fits

/-- The codec's registers and store agree (R30 to R32): with `GVALID = 1`, `K` and `M` are at least 1, `K + M` is at most 256 and `G`
is a `(K + M) x K` matrix; with `GVALID = 0` they hold their reset values. -/
def codecOk (s : State) : Bool :=
  if s.gvalid then
    decide (1 ≤ s.K) && decide (1 ≤ s.M) && decide (s.N ≤ Config.NMAX) &&
      s.g.wf && s.g.rows == s.N && s.g.cols == s.K
  else s.K == 0 && s.M == 0 && s.g == Mat.empty

/-- The invariant every step keeps: banks within bounds (R26), codec state consistent (R31, R32), shard memory in canonical form. -/
structure Inv (s : State) : Prop where
  banks : ∀ b : Bank, bankOk (s.bank b) = true
  codec : codecOk s = true
  shard : Memory.wf s.shard = true

/-- A launch state (R45, R291): every piece of state at its reset value, but for what the spec leaves unspecified there (shard
memory and `CMDREG`) and what the host is about to do. -/
def IsLaunch (s : State) : Prop :=
  Memory.wf s.shard = true ∧
    s = { State.reset with shard := s.shard, cmdreg := s.cmdreg, inputs := s.inputs }

/-- The host obeys R300 from here on: while `BUSY = 1` it only reads STATUS, until the engine has taken its step or reset comes. -/
def hostObeys : (busy : Bool) → List Event → Bool
  | _, [] => true
  | false, .issue _ :: rest => hostObeys true rest
  | false, .regRead _ :: rest => hostObeys false rest
  | false, .regWrite _ _ :: rest => hostObeys false rest
  | false, .shardRead _ _ :: rest => hostObeys false rest
  | false, .shardWrite _ _ _ :: rest => hostObeys false rest
  | true, .issue _ :: _ => false
  | true, .regRead n :: rest => n == 0x000#12 && hostObeys true rest
  | true, .regWrite _ _ :: _ => false
  | true, .shardRead _ _ :: _ => false
  | true, .shardWrite _ _ _ :: _ => false
  | _, .engine :: rest => hostObeys false rest
  | _, .reset _ :: rest => hostObeys false rest

/-- The top `k x k` block of a generator matrix is the identity (R34). -/
def topIsIdentity (G : Mat) (k : Nat) : Prop :=
  ∀ r c, r < k → c < k → G.get r c = if r = c then 1 else 0

/-- The generator store holds what CINIT constructs for the `K` and `M` beside it (R32, R203), whenever `GVALID = 1`. -/
def storeIsGenerator (s : State) : Prop := s.gvalid = true → generator s.K s.M = some s.g

/-- The matrix is one the matrix functions are about: well formed and `n x n` (R160, R162). -/
def squareOf (A : Mat) (n : Nat) : Prop := A.wf = true ∧ A.rows = n ∧ A.cols = n

/-- Every byte of shard memory reads the same in the two states. -/
def sameShards (s t : State) : Prop := ∀ sh p, shardRead t sh p = shardRead s sh p

/-- Shard memory read outside the bytes `[off, off + len)` of the shards that `which` names is the same in the two states. -/
def sameShardsOutside (which : Nat → Bool) (off len : Nat) (s t : State) : Prop :=
  ∀ (sh : BitVec 8) (p : BitVec 16),
    ¬ (which sh.toNat = true ∧ off ≤ p.toNat ∧ p.toNat < off + len) → shardRead t sh p = shardRead s sh p

/-- The state after `n` polls of STATUS and nothing else (R73): the answers stand in front of the replies, all else is as before. -/
def afterPolls (n : Nat) (s : State) : State :=
  { s with inputs := [], replies := List.replicate n (.reg 0x000#12 s.status) ++ s.replies }

/-- The conditions under which CENC, CVFY and CDEC pass their shared precondition (42_codec.md R204). -/
def validShardSet (off len : Nat) (s : State) : Prop :=
  s.gvalid = true ∧ s.N ≤ Config.NSH ∧ s.shcount.toNat = s.N ∧
    (∀ t, t < s.N → s.shlenAt t = s.shlenAt 0) ∧ off + len ≤ s.shlenAt 0

/-- Repeated doubling of a field element, reduced by the constant `POLY` (40_field.md R121). -/
def doubled (a : Byte) : Nat → Byte
  | 0 => a
  | i + 1 => BitVec.ofNat 8 (logDouble Config.POLY (doubled a i).toNat)

/-- The product of two bytes as polynomials, by doubling and XOR, without a table. -/
def shiftXorMul (a b : Byte) : Byte := xorOver 8 fun i => if b.getLsbD i then doubled a i else 0

/-- `a` multiplied by itself `n` times with `gf_mul`, starting from 1 (R131). -/
def mulPower (a : Byte) : Nat → Byte
  | 0 => 1
  | n + 1 => gfMul (mulPower a n) a

/-! What a command may touch, as the spec's tables give it. -/

/-- The element register a command writes on success (10_state.md R21). -/
def writesElem : Instr → Option EReg
  | .eli ed _ => some ed
  | .gfadd ed _ _ => some ed
  | .gfsub ed _ _ => some ed
  | .gfmul ed _ _ => some ed
  | .gfdiv ed _ _ => some ed
  | .gfexp ed _ _ => some ed
  | .mget ed _ _ _ => some ed
  | .mzero _ _ _ | .mident _ _ | .mset _ _ _ _ | .mmul _ _ _ | .maug _ _ _ | .msub _ _ _ _ _ _ | .mrow _ _ _
  | .mswap _ _ _ | .minv _ _ | .cinit _ _ | .cenc _ _ | .cvfy _ _ | .cdec _ _ | .cgen _ => none

/-- The bank a command replaces whole (10_state.md R27). -/
def replacesBank : Instr → Option Bank
  | .mzero bd _ _ => some bd
  | .mident bd _ => some bd
  | .mmul bd _ _ => some bd
  | .maug bd _ _ => some bd
  | .msub bd _ _ _ _ _ => some bd
  | .mrow bd _ _ => some bd
  | .minv bd _ => some bd
  | .cgen bd => some bd
  | .eli _ _ | .gfadd _ _ _ | .gfsub _ _ _ | .gfmul _ _ _ | .gfdiv _ _ _ | .gfexp _ _ _ | .mget _ _ _ _
  | .mset _ _ _ _ | .mswap _ _ _ | .cinit _ _ | .cenc _ _ | .cvfy _ _ | .cdec _ _ => none

/-- The bank whose cells a command changes in place, dimensions kept (10_state.md R27). -/
def changesCells : Instr → Option Bank
  | .mset bd _ _ _ => some bd
  | .mswap bd _ _ => some bd
  | .eli _ _ | .gfadd _ _ _ | .gfsub _ _ _ | .gfmul _ _ _ | .gfdiv _ _ _ | .gfexp _ _ _ | .mzero _ _ _ | .mident _ _
  | .mget _ _ _ _ | .mmul _ _ _ | .maug _ _ _ | .msub _ _ _ _ _ _ | .mrow _ _ _ | .minv _ _ | .cinit _ _ | .cenc _ _
  | .cvfy _ _ | .cdec _ _ | .cgen _ => none

/-- The errors a command can end with, the paths marked (u) among them (60_exceptions.md R251). -/
def mayRaise : Instr → List Error
  | .eli _ _ | .gfadd _ _ _ | .gfsub _ _ _ | .gfmul _ _ _ | .gfexp _ _ _ => []
  | .gfdiv _ _ _ => [.divisionByZero]
  | .mzero _ _ _ | .mident _ _ => [.capacity]
  | .mget _ _ _ _ | .mset _ _ _ _ | .msub _ _ _ _ _ _ | .mrow _ _ _ | .mswap _ _ _ => [.indexOutOfRange]
  | .mmul _ _ _ => [.dimensionMismatch]
  | .maug _ _ _ => [.dimensionMismatch, .capacity]
  | .minv _ _ => [.notSquare, .singular]
  | .cinit _ _ => [.invalidArgument, .singular]
  | .cenc _ _ | .cvfy _ _ => [.invalidArgument, .noCodec]
  | .cdec _ _ => [.invalidArgument, .singular, .insufficientShards, .noCodec]
  | .cgen _ => [.noCodec]

/-- The whole frame of a command that writes element register `d` and succeeds: every other element register, every other piece of
state and every byte of shard memory as before; `ERR = 0` and `BUSY = 0` (R15, R21, R71). -/
def onlyElemWritten (d : EReg) (s t : State) : Prop :=
  (∀ r, r ≠ d → t.elem r = s.elem r) ∧ t = { s with e := t.e, err := none, busy := false } ∧ sameShards s t

/-- The whole frame of a command that writes bank `d` and succeeds. -/
def onlyBankWritten (d : Bank) (s t : State) : Prop :=
  (∀ b, b ≠ d → t.bank b = s.bank b) ∧ t = { s with banks := t.banks, err := none, busy := false } ∧ sameShards s t

/-- An error completion (R252): the next state is the old one but for `ERR` and `BUSY`. -/
def endsInError (i : Instr) (x : Error) (s : State) : Prop :=
  exec i s = .next { s with err := some x, busy := false }

/-- `A` is the `R x C` matrix with the cells `F` (R14, R160). -/
def isMatrix (A : Mat) (R C : Nat) (F : Nat → Nat → Byte) : Prop :=
  A.wf = true ∧ A.rows = R ∧ A.cols = C ∧ ∀ r c, r < R → c < C → A.get r c = F r c

/-- It is the engine's turn in `s` (R71): a command is latched, and the outside world does nothing next or leaves the step to the
engine; `s'` is `s` with that event taken. -/
def engineTurn (s s' : State) : Prop :=
  s.busy = true ∧ ((s.inputs = [] ∧ s' = s) ∨ ∃ rest, s.inputs = .engine :: rest ∧ s' = { s with inputs := rest })

/-- A transaction on one of the three ports (20_memory.md R60). -/
def isTransaction : Event → Bool
  | .issue _ | .regRead _ | .regWrite _ _ | .shardRead _ _ | .shardWrite _ _ _ => true
  | .engine | .reset _ => false

/-- `PAR(i, p)` (R205) written out over the bytes of shard memory. -/
def parOf (s : State) (mem : Memory) (i p : Nat) : Byte :=
  xorOver s.K fun c => gfMul (s.g.get (s.K + i) c) (memRead mem c p)

end Sys2Proof.Machine
end

