-- ==== Sys2Proof/Certificates/Slice0/Obligations.lean ====
section
/-! DEFINITION. What is claimed of the model, one statement a definition, from the numbered rules of spec/. -/

open Sys2Proof Sys2Proof.Machine

/-! ### Encoding (30_encoding.md) -/

/-- Decoding the word of any command that a word can spell gives the command back, with every operand (R90 to R93, R101). -/
def Obligations.DecodeOfEncodeIsTheCommand : Prop :=
  ∀ i : Instr, WellFormed i → decode (encode i) = .ok i

/-- A word that decodes is the encoding of what it decodes to: no two words are one command, and no bit of a word is ignored (R96). -/
def Obligations.EncodeOfDecodeIsTheWord : Prop :=
  ∀ (w : Command) (i : Instr), decode w = .ok i → WellFormed i ∧ encode i = w

/-- At most one row of the opcode map hits a word (R93, R101). -/
def Obligations.AtMostOneOpcodeRowHits : Prop :=
  ∀ w : Command, (opTable.filter fun row => row.hits w).length ≤ 1

/-- Words written out in the spec decode to the commands they stand for, one of every format (R93; 95 T51). -/
def Obligations.SpecWordsDecodeToTheirCommands : Prop :=
  decode 0x1010000000000053#64 = .ok (.eli 1 0x53) ∧ decode 0x1331200000000000#64 = .ok (.gfmul 3 1 2) ∧
  decode 0x1531000000000008#64 = .ok (.gfexp 3 1 8) ∧ decode 0x2000000000002003#64 = .ok (.mzero 0 2 3) ∧
  decode 0x2110000000000003#64 = .ok (.mident 1 3) ∧ decode 0x2304000000001002#64 = .ok (.mset 0 1 2 4) ∧
  decode 0x2632000002002004#64 = .ok (.msub 3 2 0 2 2 4) ∧ decode 0x2740000000000001#64 = .ok (.mrow 4 0 1) ∧
  decode 0x2910000000000000#64 = .ok (.minv 1 0) ∧ decode 0x3000000000004002#64 = .ok (.cinit 4 2) ∧
  decode 0x3300000000000004#64 = .ok (.cdec 0 4) ∧ decode 0x3470000000000000#64 = .ok (.cgen 7)

/-- R95: a word with an unassigned opcode is an illegal command whatever its other bits are: executing it ends with `IllegalCommand`,
code 8, and nothing else changes; the all-zero and the all-ones words are such words. -/
def Obligations.UnassignedOpcodesAreIllegalCommands : Prop :=
  (∀ w : Command,
    ((fOp w).toNat ≤ 0x0F ∨ (0x16 ≤ (fOp w).toNat ∧ (fOp w).toNat ≤ 0x1F) ∨
      (0x2A ≤ (fOp w).toNat ∧ (fOp w).toNat ≤ 0x2F) ∨ 0x35 ≤ (fOp w).toNat) →
    decode w = .error (.opcode (fOp w)) ∧
      ∀ s s' : State, s.cmdreg = w → engineTurn s s' →
        step s = .next { s' with err := some .illegalCommand, busy := false }) ∧
  Error.illegalCommand.code = 8 ∧ fOp 0#64 = 0x00 ∧ fOp (BitVec.allOnes 64) = 0xFF

/-- R94: a word with an assigned opcode and a 1 in a reserved bit of its format (a bit of the row's mask below the opcode) is an
illegal command. -/
def Obligations.ReservedBitsAreIllegalCommands : Prop :=
  (∀ row ∈ opTable, ∀ w : Command, fOp w = fOp row.mat → w &&& row.mask &&& 0x00FFFFFFFFFFFFFF#64 ≠ 0 →
    decode w = .error (.reservedBits (fOp w)) ∧
      ∀ s s' : State, s.cmdreg = w → engineTurn s s' →
        step s = .next { s' with err := some .illegalCommand, busy := false }) ∧
  Error.illegalCommand.code = 8

/-! ### Steps, ports and reset (10_state.md, 20_memory.md, 70_reset_and_hazards.md) -/

/-- The execute step runs exactly the decoded command (R71, R101), and so does the step after `withFetchWord`. -/
def Obligations.StepRunsTheDecodedCommand : Prop :=
  (∀ (s s' : State) (i : Instr), engineTurn s s' → decode s.cmdreg = .ok i → step s = exec i s') ∧
  ∀ (s : State) (nbits w : Nat) (i : Instr), decode (tableWord nbits w) = .ok i →
    step (s.withFetchWord nbits w) = exec i { s with cmdreg := tableWord nbits w, busy := true }

/-- `Issue(w)` on an idle core writes CMDREG and sets BUSY and changes nothing else (R70). On a busy core the spec gives it no
meaning and asks a model to refuse it (R300); that the model stops there with `hostWhileBusy` is log entry 4 (DEDUCED). -/
def Obligations.IssueLatchesTheCommand : Prop :=
  ∀ (s : State) (w : Command) (rest : List Event), s.inputs = .issue w :: rest →
    (s.busy = false → step s = .next { s with cmdreg := w, busy := true, inputs := rest }) ∧
    (s.busy = true → step s = .refused .hostWhileBusy)

/-- While `BUSY = 1` the only transaction with a meaning is `RegRead(0x000)`, which returns `BUSY = 1` and the other fields as they are;
every other one the spec gives no meaning and asks a model to refuse (R73, R300), which the model does with `hostWhileBusy`: log
entry 4 (DEDUCED). -/
def Obligations.BusyCoreAnswersOnlyStatusPolls : Prop :=
  ∀ (s : State) (v : Event) (rest : List Event), s.busy = true → s.inputs = v :: rest → isTransaction v = true →
    (v = .regRead 0x000#12 →
      step s = .next { s with inputs := rest, replies := .reg 0x000#12 s.status :: s.replies } ∧
        s.status.getLsbD 0 = true) ∧
    (v ≠ .regRead 0x000#12 → step s = .refused .hostWhileBusy)

/-- While the core is idle every host transaction takes effect at once (R72): reads return the current value and leave the core as it
is, a `RegWrite` stores the writable bits, a `ShardWrite` stores its byte. -/
def Obligations.IdleHostTransactionsTakeEffect : Prop :=
  ∀ (s : State) (rest : List Event), s.busy = false →
    (∀ n, s.inputs = .regRead n :: rest →
      step s = .next { s with inputs := rest, replies := .reg n (regRead s n) :: s.replies }) ∧
    (∀ sh p, s.inputs = .shardRead sh p :: rest →
      step s = .next { s with inputs := rest, replies := .byte sh p (shardRead s sh p) :: s.replies }) ∧
    (∀ n v, s.inputs = .regWrite n v :: rest → step s = .next { regWrite n v s with inputs := rest }) ∧
    (∀ sh p v, s.inputs = .shardWrite sh p v :: rest →
      step s = .next { s with inputs := rest, shard := memWrite s.shard sh.toNat p.toNat v })

/-- STATUS, bit by bit (R35), with the error codes of R250; a write to it is ignored. -/
def Obligations.StatusRegisterLayout : Prop :=
  (∀ s : State, (regRead s 0x000#12).getLsbD 0 = s.busy ∧ (regRead s 0x000#12).getLsbD 1 = s.gvalid ∧
    (regRead s 0x000#12).getLsbD 2 = s.vfy ∧ (regRead s 0x000#12).getLsbD 3 = false ∧
    (regRead s 0x000#12).extractLsb' 4 4 = errField s.err ∧
    (∀ j, 8 ≤ j → (regRead s 0x000#12).getLsbD j = false) ∧ ∀ v, regWrite 0x000#12 v s = s) ∧
  errField none = 0 ∧
  [Error.invalidArgument, .indexOutOfRange, .dimensionMismatch, .notSquare, .singular, .divisionByZero,
    .insufficientShards, .illegalCommand, .noCodec, .capacity].map (fun x => (errField (some x)).toNat) =
    [1, 2, 3, 4, 5, 6, 7, 8, 9, 10]

/-- R36 and R37: the fields of CODEC and POLY; their other bits read 0 and writes to them are ignored. -/
def Obligations.CodecAndPolyRegisterLayout : Prop :=
  ∀ s : State,
    ((regRead s 0x001#12).extractLsb' 0 9 = s.k ∧ (regRead s 0x001#12).extractLsb' 9 7 = 0 ∧
      (regRead s 0x001#12).extractLsb' 16 9 = s.m ∧ (regRead s 0x001#12).extractLsb' 25 7 = 0) ∧
    ((regRead s 0x002#12).extractLsb' 0 8 = 29 ∧ (regRead s 0x002#12).extractLsb' 8 24 = 0) ∧
    ∀ v, regWrite 0x001#12 v s = s ∧ regWrite 0x002#12 v s = s

/-- The element registers stand at register numbers `0x010` to `0x01F`, readable and not writable by the host (R22). -/
def Obligations.ElementRegistersAreReadOnlyToTheHost : Prop :=
  ∀ (s : State) (i : EReg) (v : RegWord),
    (regRead s (BitVec.ofNat 12 (0x010 + i.val))).extractLsb' 0 8 = s.elem i ∧
    (regRead s (BitVec.ofNat 12 (0x010 + i.val))).extractLsb' 8 24 = 0 ∧
    regWrite (BitVec.ofNat 12 (0x010 + i.val)) v s = s

/-- R42: a read of an unmapped register number returns 0 and a write to one is ignored, without side effect. -/
def Obligations.UnmappedRegistersReadZero : Prop :=
  ∀ (s : State) (n : BitVec 12) (v : RegWord),
    ((4 ≤ n.toNat ∧ n.toNat ≤ 0x00F) ∨ (0x028 ≤ n.toNat ∧ n.toNat ≤ 0x0FF) ∨ 0x200 ≤ n.toNat) →
    regRead s n = 0 ∧ regWrite n v s = s

/-- SHCOUNT keeps bits 8:0 and SHLEN[t] bits 15:0 of what the host writes; the other bits read 0; no other register and no other
state changes (R38, R39). -/
def Obligations.DescriptorWritesKeepTheirWritableBits : Prop :=
  (∀ (s : State) (v : RegWord), (regWrite 0x003#12 v s).shcount.toNat = v.toNat % 512 ∧
    (regRead (regWrite 0x003#12 v s) 0x003#12).toNat = v.toNat % 512 ∧
    regWrite 0x003#12 v s = { s with shcount := (regWrite 0x003#12 v s).shcount }) ∧
  ∀ (s : State) (v : RegWord) (t : Nat), t < 256 →
    (regWrite (BitVec.ofNat 12 (0x100 + t)) v s).shlenAt t = v.toNat % 65536 ∧
    (regRead (regWrite (BitVec.ofNat 12 (0x100 + t)) v s) (BitVec.ofNat 12 (0x100 + t))).toNat = v.toNat % 65536 ∧
    (∀ u, u ≠ t → (regWrite (BitVec.ofNat 12 (0x100 + t)) v s).shlenAt u = s.shlenAt u) ∧
    regWrite (BitVec.ofNat 12 (0x100 + t)) v s = { s with shlen := (regWrite (BitVec.ofNat 12 (0x100 + t)) v s).shlen }

/-- `PRESENT[32*i + j]` is bit `j` of register `0x020 + i`, for reads and for writes (R40); a write changes no other bit and no other
state. -/
def Obligations.PresentBitsArePackedInEightRegisters : Prop :=
  ∀ (s : State) (v : RegWord) (i : Nat), i < 8 →
    (∀ j, j < 32 → (regRead s (BitVec.ofNat 12 (0x020 + i))).getLsbD j = s.presentAt (32 * i + j) ∧
      (regWrite (BitVec.ofNat 12 (0x020 + i)) v s).presentAt (32 * i + j) = v.getLsbD j) ∧
    (∀ u, u < 256 → u / 32 ≠ i → (regWrite (BitVec.ofNat 12 (0x020 + i)) v s).presentAt u = s.presentAt u) ∧
    regWrite (BitVec.ofNat 12 (0x020 + i)) v s =
      { s with present := (regWrite (BitVec.ofNat 12 (0x020 + i)) v s).present }

/-- The shard port (R62, R72): every byte of every buffer can be written and read back, whatever the descriptors hold; no other byte
and no other state changes, and shard memory keeps its canonical form. -/
def Obligations.ShardPortReadsWhatItWrote : Prop :=
  ∀ (s : State) (sh : BitVec 8) (p : BitVec 16) (v : Byte), Memory.wf s.shard = true →
    (∀ sh' p', shardRead (shardWrite sh p v s) sh' p' = if sh = sh' ∧ p = p' then v else shardRead s sh' p') ∧
    shardWrite sh p v s = { s with shard := (shardWrite sh p v s).shard } ∧
    Memory.wf (shardWrite sh p v s).shard = true

/-- Reset from outside, at any time, also while a command is latched (R290): every piece of the core's state has its value of R45.
CMDREG takes the model's value (log entry 2) and the host's lists go on (log entries 3 and 12). -/
def Obligations.ResetTakesEffectAtAnyTime : Prop :=
  ∀ (s : State) (contents : List ShardByte) (rest : List Event), s.inputs = .reset contents :: rest →
    step s = .next { State.reset with shard := shardContents contents, inputs := rest, replies := s.replies }

/-- Shard memory after reset is unspecified (R45, R291): whatever bytes one wants there, some reset event leaves them. -/
def Obligations.ResetCanLeaveAnyShardContents : Prop :=
  ∀ f : BitVec 8 → BitVec 16 → Byte, ∃ contents : List ShardByte,
    ∀ (s : State) (sh : BitVec 8) (p : BitVec 16), shardRead (resetEvent contents s) sh p = f sh p

/-- The reset values the spec states (R45). -/
def Obligations.ResetStateHoldsTheStatedValues : Prop :=
  (∀ r, State.reset.elem r = 0) ∧ (∀ b, (State.reset.bank b).rows = 0 ∧ (State.reset.bank b).cols = 0) ∧
  State.reset.gvalid = false ∧ State.reset.K = 0 ∧ State.reset.M = 0 ∧ State.reset.g = Mat.empty ∧
  regRead State.reset 0x000#12 = 0 ∧ State.reset.shcount = 0 ∧ (∀ t, State.reset.shlenAt t = 0) ∧
  (∀ t, State.reset.presentAt t = false) ∧ regRead State.reset 0x002#12 = 29

/-- The invariant holds in every launch state (R45, R291), `State.reset` among them, and so do the two facts on the generator store. -/
def Obligations.LaunchStatesMeetTheInvariant : Prop :=
  IsLaunch State.reset ∧ ∀ s : State, IsLaunch s →
    Inv s ∧ (s.gvalid = true → topIsIdentity s.g s.K) ∧ storeIsGenerator s

/-- Every step keeps the invariant: banks within 256 x 512 (R26), codec registers and store consistent (R30 to R32), shard memory
canonical. -/
def Obligations.EveryStepKeepsTheInvariant : Prop :=
  ∀ s t : State, Inv s → step s = .next t → Inv t

/-- With a host that obeys R300 the machine never stops, however long it runs: no fault and no refusal is ever reached (R10, R300). -/
def Obligations.ObedientHostsNeverStopTheMachine : Prop :=
  ∀ s : State, Inv s → hostObeys s.busy s.inputs = true → ∀ n : Nat, ∃ t, Host.Core.run Sys2Proof.core n s = .next t ∧ Inv t

/-- Every command completes, with success or with one error code (R10). -/
def Obligations.EveryCommandCompletes : Prop :=
  ∀ (i : Instr) (s : State), Inv s → ∃ t, exec i s = .next t ∧ t.busy = false

/-- A latched command is executed (R76): whatever number of polls comes first, the run over them and one step more is the execute step
of the latched command in the state with the polls answered, and it completes with BUSY = 0. -/
def Obligations.LatchedCommandsAreExecuted : Prop :=
  ∀ (s : State) (n : Nat), Inv s → s.busy = true → s.inputs = List.replicate n (.regRead 0x000#12) →
    Host.Core.run Sys2Proof.core (n + 1) s = executeStep (afterPolls n s) ∧
      ∃ t, executeStep (afterPolls n s) = .next t ∧ t.busy = false

/-- R252: the state after a failed command is the state before it, except ERR and BUSY; issued again without a change it fails again
with the same code (R256). -/
def Obligations.ErrorsChangeOnlyErrAndBusy : Prop :=
  ∀ (i : Instr) (s t : State) (x : Error), exec i s = .next t → t.err = some x →
    t = { s with err := some x, busy := false } ∧ exec i t = .next t

/-- A command ends only with the errors R251 gives it. -/
def Obligations.CommandsRaiseOnlyTheirOwnErrors : Prop :=
  ∀ (i : Instr) (s t : State) (x : Error), exec i s = .next t → t.err = some x → x ∈ mayRaise i

/-- Which command writes what (R21, R27, R30 to R32, R35, R38 to R40, R43, R211). -/
def Obligations.OnlyTheNamedCommandsWriteEachState : Prop :=
  ∀ (i : Instr) (s t : State), exec i s = .next t →
    (t.shcount = s.shcount ∧ t.shlen = s.shlen ∧ t.present = s.present ∧ t.cmdreg = s.cmdreg ∧ t.inputs = s.inputs ∧
      t.replies = s.replies ∧ t.busy = false) ∧
    ((∀ k m, i ≠ .cinit k m) → t.gvalid = s.gvalid ∧ t.k = s.k ∧ t.m = s.m ∧ t.g = s.g) ∧
    ((∀ off len, i ≠ .cvfy off len) → t.vfy = s.vfy) ∧
    ((∀ off len, i ≠ .cenc off len ∧ i ≠ .cdec off len) → t.shard = s.shard ∧ sameShards s t) ∧
    (∀ r, writesElem i ≠ some r → t.elem r = s.elem r) ∧
    (∀ b, replacesBank i ≠ some b → (t.bank b).rows = (s.bank b).rows ∧ (t.bank b).cols = (s.bank b).cols) ∧
    (∀ b, replacesBank i ≠ some b → changesCells i ≠ some b → t.bank b = s.bank b)

/-! ### Field unit (40_field.md) -/

/-- The generation procedure of R121 and R122 succeeds for `POLY = 29` and gives exactly the contents of the ROMs (R124, R125); the
failure branch is dead (R259). -/
def Obligations.RomsHoldTheGeneratedTables : Prop :=
  ∃ t, generateLogTable Config.POLY = some t ∧ (∀ x : Byte, x ≠ 0 → t.lookup x.toNat = some (LOG x)) ∧
    generateExpTable t = (List.range 510).map ALOG

/-- R126, (a) to (f). -/
def Obligations.RomProperties : Prop :=
  (∀ x : Byte, x ≠ 0 → ALOG (LOG x) = x) ∧ (∀ i, i < 255 → LOG (ALOG i) = i) ∧
  (∀ i, i < 255 → ALOG (i + 255) = ALOG i) ∧ (ALOG 0 = 1 ∧ LOG 1 = 0) ∧ ALOG 1 = 2 ∧ ∀ i, i < 510 → ALOG i ≠ 0

/-- Exactly 16 constants are valid generating polynomials (R7). -/
def Obligations.SixteenConstantsGenerateAField : Prop :=
  ∀ p : Byte, (generateLogTable p).isSome = true ↔
    p.toNat ∈ [29, 43, 45, 77, 95, 99, 101, 105, 113, 135, 141, 169, 195, 207, 231, 245]

/-- The laws of R132 over one and two operands. -/
def Obligations.FieldLawsOfTwoOperands : Prop :=
  ∀ a b : Byte, gfAdd a b = gfAdd b a ∧ gfMul a b = gfMul b a ∧ gfMul 1 a = a ∧ gfAdd a a = 0 ∧ gfExp a 0 = 1 ∧
    (∀ n, 0 < n → gfExp 0 n = 0) ∧ gfDiv a 0 = .error .divisionByZero ∧
    (a ≠ 0 → (∃ v, gfDiv 1 a = .ok v ∧ gfMul a v = 1) ∧ gfDiv a a = .ok 1) ∧
    (b ≠ 0 → ∃ v, gfDiv a b = .ok v ∧ gfMul v b = a)

/-- The laws of R132 over three operands: with the others they make the bytes a field. -/
def Obligations.FieldLawsOfThreeOperands : Prop :=
  ∀ a b c : Byte, gfMul (gfMul a b) c = gfMul a (gfMul b c) ∧ gfMul a (gfAdd b c) = gfAdd (gfMul a b) (gfMul a c)

/-- `gf_exp(a, n)` is `a` multiplied by itself `n` times, starting from 1 (R131). -/
def Obligations.ExponentiationIsRepeatedMultiplication : Prop :=
  ∀ (a : Byte) (n : Nat), gfExp a n = mulPower a n

/-- Multiplication through the ROMs is multiplication of polynomials by doubling and XOR, reduced by `POLY` (R121, R129). -/
def Obligations.RomMultiplicationIsShiftAndXor : Prop :=
  ∀ a b : Byte, gfMul a b = shiftXorMul a b

/-- R140: ELI. -/
def Obligations.EliLoadsTheImmediate : Prop :=
  ∀ (d : EReg) (v : Byte) (s : State), encode (.eli d v) = 0x10#8 ++ BitVec.ofNat 4 d.val ++ 0#44 ++ v ∧
    (∃ t, exec (.eli d v) s = .next t ∧ t.elem d = v ∧ onlyElemWritten d s t) ∧ encode (.eli 1 0x53) = 0x1010000000000053#64

/-- R141 and R142: GFADD and GFSUB are both the bitwise XOR of their operands; the destination may be a source. -/
def Obligations.GfaddAndGfsubXorTheirOperands : Prop :=
  ∀ (d a b : EReg) (s : State),
    (encode (.gfadd d a b) = 0x11#8 ++ BitVec.ofNat 4 d.val ++ BitVec.ofNat 4 a.val ++ BitVec.ofNat 4 b.val ++ 0#44 ∧
      ∃ t, exec (.gfadd d a b) s = .next t ∧ t.elem d = s.elem a ^^^ s.elem b ∧ onlyElemWritten d s t) ∧
    (encode (.gfsub d a b) = 0x12#8 ++ BitVec.ofNat 4 d.val ++ BitVec.ofNat 4 a.val ++ BitVec.ofNat 4 b.val ++ 0#44 ∧
      ∃ t, exec (.gfsub d a b) s = .next t ∧ t.elem d = s.elem a ^^^ s.elem b ∧ onlyElemWritten d s t) ∧
    gfAdd 0x53 0xCA = 0x99 ∧ gfSub 0x53 0xCA = 0x99

/-- R143 with R129: GFMUL. -/
def Obligations.GfmulMultipliesThroughTheRoms : Prop :=
  ∀ (d a b : EReg) (s : State),
    encode (.gfmul d a b) = 0x13#8 ++ BitVec.ofNat 4 d.val ++ BitVec.ofNat 4 a.val ++ BitVec.ofNat 4 b.val ++ 0#44 ∧
    (∃ t, exec (.gfmul d a b) s = .next t ∧ onlyElemWritten d s t ∧
      (s.elem a = 0 ∨ s.elem b = 0 → t.elem d = 0) ∧
      (s.elem a ≠ 0 → s.elem b ≠ 0 → t.elem d = ALOG (LOG (s.elem a) + LOG (s.elem b)) ∧
        LOG (s.elem a) + LOG (s.elem b) ≤ 508) ∧
      (s.elem a = 1 → t.elem d = s.elem b) ∧ (s.elem b = 1 → t.elem d = s.elem a)) ∧
    gfMul 0x53 0xCA = 0x8F ∧ gfMul 0x8E 0x8E = 0x47 ∧ LOG 0x8E = 254 ∧ LOG 0x53 = 206 ∧ LOG 0xCA = 73

/-- R144 with R130: GFDIV; a zero divisor is DivisionByZero (code 6) whatever the dividend. -/
def Obligations.GfdivDividesThroughTheRoms : Prop :=
  ∀ (d a b : EReg) (s : State),
    encode (.gfdiv d a b) = 0x14#8 ++ BitVec.ofNat 4 d.val ++ BitVec.ofNat 4 a.val ++ BitVec.ofNat 4 b.val ++ 0#44 ∧
    (s.elem b = 0 → endsInError (.gfdiv d a b) .divisionByZero s) ∧ Error.divisionByZero.code = 6 ∧
    (s.elem b ≠ 0 → ∃ t, exec (.gfdiv d a b) s = .next t ∧ onlyElemWritten d s t ∧
      (s.elem a = 0 → t.elem d = 0) ∧
      (s.elem a ≠ 0 → t.elem d = ALOG ((LOG (s.elem a) + 255 - LOG (s.elem b)) % 255)) ∧
      (s.elem a = s.elem b → t.elem d = 1) ∧ (s.elem b = 1 → t.elem d = s.elem a)) ∧
    gfDiv 0x01 0x02 = .ok 0x8E

/-- R145 with R131: GFEXP; the product is formed on the naturals before it is reduced. -/
def Obligations.GfexpRaisesToAnImmediatePower : Prop :=
  ∀ (d a : EReg) (n : Nat) (s : State),
    encode (.gfexp d a n) = 0x15#8 ++ BitVec.ofNat 4 d.val ++ BitVec.ofNat 4 a.val ++ 0#16 ++ BitVec.ofNat 32 n ∧
    (∃ t, exec (.gfexp d a n) s = .next t ∧ onlyElemWritten d s t ∧ (n = 0 → t.elem d = 1) ∧
      (n ≠ 0 → s.elem a = 0 → t.elem d = 0) ∧
      (n ≠ 0 → s.elem a ≠ 0 → t.elem d = ALOG (LOG (s.elem a) * n % 255)) ∧
      (s.elem a = 1 → t.elem d = 1) ∧ (n = 255 → s.elem a ≠ 0 → t.elem d = 1) ∧ (n = 256 → t.elem d = s.elem a)) ∧
    gfExp 0x02 8 = 0x1D

/-! ### Matrix unit (41_matrix.md) -/

/-- R170 and R171: MZERO and MIDENT, with the Capacity error. -/
def Obligations.MzeroAndMidentCreateMatrices : Prop :=
  (∀ (d : Bank) (rows cols : Nat) (s : State),
    encode (.mzero d rows cols) = 0x20#8 ++ BitVec.ofNat 4 d.val ++ 0#28 ++ BitVec.ofNat 12 rows ++ BitVec.ofNat 12 cols ∧
    (rows ≤ 256 → cols ≤ 512 → ∃ t, exec (.mzero d rows cols) s = .next t ∧
      isMatrix (t.bank d) rows cols (fun _ _ => 0) ∧ onlyBankWritten d s t) ∧
    (256 < rows ∨ 512 < cols → endsInError (.mzero d rows cols) .capacity s)) ∧
  (∀ (d : Bank) (n : Nat) (s : State), encode (.mident d n) = 0x21#8 ++ BitVec.ofNat 4 d.val ++ 0#40 ++ BitVec.ofNat 12 n ∧
    (n ≤ 256 → ∃ t, exec (.mident d n) s = .next t ∧
      isMatrix (t.bank d) n n (fun r c => if r = c then 1 else 0) ∧ onlyBankWritten d s t) ∧
    (256 < n → endsInError (.mident d n) .capacity s)) ∧
  Error.capacity.code = 10

/-- R172 and R173: MGET reads one cell, MSET writes one cell and keeps the dimensions and every other cell; both check the bounds. -/
def Obligations.MgetAndMsetAccessOneCell : Prop :=
  (∀ (d : EReg) (a : Bank) (r c : Nat) (s : State),
    encode (.mget d a r c) = 0x22#8 ++ BitVec.ofNat 4 d.val ++ BitVec.ofNat 4 a.val ++ 0#24 ++ BitVec.ofNat 12 r ++ BitVec.ofNat 12 c ∧
    (r < (s.bank a).rows → c < (s.bank a).cols → ∃ t, exec (.mget d a r c) s = .next t ∧
      t.elem d = (s.bank a).get r c ∧ onlyElemWritten d s t) ∧
    ((s.bank a).rows ≤ r ∨ (s.bank a).cols ≤ c → endsInError (.mget d a r c) .indexOutOfRange s)) ∧
  (∀ (d : Bank) (r c : Nat) (a : EReg) (s : State), (s.bank d).wf = true →
    encode (.mset d r c a) = 0x23#8 ++ BitVec.ofNat 4 d.val ++ BitVec.ofNat 4 a.val ++ 0#24 ++ BitVec.ofNat 12 r ++ BitVec.ofNat 12 c ∧
    (r < (s.bank d).rows → c < (s.bank d).cols → ∃ t, exec (.mset d r c a) s = .next t ∧
      isMatrix (t.bank d) (s.bank d).rows (s.bank d).cols
        (fun r' c' => if r' = r ∧ c' = c then s.elem a else (s.bank d).get r' c') ∧ onlyBankWritten d s t) ∧
    ((s.bank d).rows ≤ r ∨ (s.bank d).cols ≤ c → endsInError (.mset d r c a) .indexOutOfRange s)) ∧
  Error.indexOutOfRange.code = 2

/-- R174 with R161: MMUL; `d` may be `a` or `b`. -/
def Obligations.MmulIsTheMatrixProduct : Prop :=
  (∀ (d a b : Bank) (s : State),
    encode (.mmul d a b) = 0x24#8 ++ BitVec.ofNat 4 d.val ++ BitVec.ofNat 4 a.val ++ BitVec.ofNat 4 b.val ++ 0#44 ∧
    ((s.bank a).cols = (s.bank b).rows → ∃ t, exec (.mmul d a b) s = .next t ∧
      isMatrix (t.bank d) (s.bank a).rows (s.bank b).cols
        (fun r c => xorOver (s.bank a).cols fun i => gfMul ((s.bank a).get r i) ((s.bank b).get i c)) ∧
      onlyBankWritten d s t) ∧
    ((s.bank a).cols ≠ (s.bank b).rows → endsInError (.mmul d a b) .dimensionMismatch s)) ∧
  Error.dimensionMismatch.code = 3

/-- R175: MAUG; the shapes are checked before the capacity. -/
def Obligations.MaugConcatenates : Prop :=
  ∀ (d a b : Bank) (s : State),
    encode (.maug d a b) = 0x25#8 ++ BitVec.ofNat 4 d.val ++ BitVec.ofNat 4 a.val ++ BitVec.ofNat 4 b.val ++ 0#44 ∧
    ((s.bank a).rows ≠ (s.bank b).rows → endsInError (.maug d a b) .dimensionMismatch s) ∧
    ((s.bank a).rows = (s.bank b).rows → 512 < (s.bank a).cols + (s.bank b).cols →
      endsInError (.maug d a b) .capacity s) ∧
    ((s.bank a).rows = (s.bank b).rows → (s.bank a).cols + (s.bank b).cols ≤ 512 →
      ∃ t, exec (.maug d a b) s = .next t ∧
        isMatrix (t.bank d) (s.bank a).rows ((s.bank a).cols + (s.bank b).cols)
          (fun r c => if c < (s.bank a).cols then (s.bank a).get r c else (s.bank b).get r (c - (s.bank a).cols)) ∧
        onlyBankWritten d s t)

/-- R176 and R177: MSUB extracts a half-open block without clamping, MROW one row as a `1 x COLS` matrix. -/
def Obligations.MsubAndMrowExtract : Prop :=
  (∀ (d a : Bank) (rmin cmin rmax cmax : Nat) (s : State),
    encode (.msub d a rmin cmin rmax cmax) = 0x26#8 ++ BitVec.ofNat 4 d.val ++ BitVec.ofNat 4 a.val ++ BitVec.ofNat 12 rmin ++
      BitVec.ofNat 12 cmin ++ BitVec.ofNat 12 rmax ++ BitVec.ofNat 12 cmax ∧
    (rmin ≤ rmax → rmax ≤ (s.bank a).rows → cmin ≤ cmax → cmax ≤ (s.bank a).cols →
      ∃ t, exec (.msub d a rmin cmin rmax cmax) s = .next t ∧
        isMatrix (t.bank d) (rmax - rmin) (cmax - cmin) (fun r c => (s.bank a).get (rmin + r) (cmin + c)) ∧
        onlyBankWritten d s t) ∧
    (rmax < rmin ∨ (s.bank a).rows < rmax ∨ cmax < cmin ∨ (s.bank a).cols < cmax →
      endsInError (.msub d a rmin cmin rmax cmax) .indexOutOfRange s)) ∧
  (∀ (d a : Bank) (r : Nat) (s : State),
    encode (.mrow d a r) = 0x27#8 ++ BitVec.ofNat 4 d.val ++ BitVec.ofNat 4 a.val ++ 0#36 ++ BitVec.ofNat 12 r ∧
    (r < (s.bank a).rows → ∃ t, exec (.mrow d a r) s = .next t ∧
      isMatrix (t.bank d) 1 (s.bank a).cols (fun _ c => (s.bank a).get r c) ∧ onlyBankWritten d s t) ∧
    ((s.bank a).rows ≤ r → endsInError (.mrow d a r) .indexOutOfRange s))

/-- R178: MSWAP exchanges two rows in place; swapping twice restores the matrix. -/
def Obligations.MswapExchangesTwoRows : Prop :=
  ∀ (d : Bank) (r1 r2 : Nat) (s : State), (s.bank d).wf = true →
    encode (.mswap d r1 r2) = 0x28#8 ++ BitVec.ofNat 4 d.val ++ 0#28 ++ BitVec.ofNat 12 r1 ++ BitVec.ofNat 12 r2 ∧
    (r1 < (s.bank d).rows → r2 < (s.bank d).rows → ∃ t, exec (.mswap d r1 r2) s = .next t ∧
      isMatrix (t.bank d) (s.bank d).rows (s.bank d).cols
        (fun r c => if r = r1 then (s.bank d).get r2 c else if r = r2 then (s.bank d).get r1 c else (s.bank d).get r c) ∧
      onlyBankWritten d s t ∧ ∃ u, exec (.mswap d r1 r2) t = .next u ∧ u.bank d = s.bank d) ∧
    ((s.bank d).rows ≤ r1 ∨ (s.bank d).rows ≤ r2 → endsInError (.mswap d r1 r2) .indexOutOfRange s)

/-- MINV (R179): NotSquare before Singular; otherwise bank `d` becomes the inverse that R162 computes and the source bank keeps its
matrix unless it is `d`. What the inverse is, other statements say. -/
def Obligations.MinvInstallsTheInverse : Prop :=
  ∀ (d a : Bank) (s : State),
    ((s.bank a).rows ≠ (s.bank a).cols → endsInError (.minv d a) .notSquare s) ∧
    ((s.bank a).rows = (s.bank a).cols → matInv (s.bank a) = none → endsInError (.minv d a) .singular s) ∧
    (∀ X, (s.bank a).rows = (s.bank a).cols → matInv (s.bank a) = some X →
      ∃ t, exec (.minv d a) s = .next t ∧ isMatrix (t.bank d) (s.bank a).rows (s.bank a).rows X.get ∧ t.bank d = X ∧
        onlyBankWritten d s t)

/-- Gauss-Jordan elimination (R162) gives the two-sided inverse, and inverting it gives the matrix back (R163). -/
def Obligations.InversionGivesTheTwoSidedInverse : Prop :=
  ∀ (A X : Mat) (n : Nat), squareOf A n → matInv A = some X →
    squareOf X n ∧ A.mul X = Mat.ident n ∧ X.mul A = Mat.ident n ∧ matInv X = some A

/-- `Singular` is raised exactly when the matrix has no inverse (R163). -/
def Obligations.SingularExactlyWhenNoInverse : Prop :=
  ∀ (A : Mat) (n : Nat), squareOf A n →
    (matInv A = none ↔ ¬ ∃ X, squareOf X n ∧ A.mul X = Mat.ident n ∧ X.mul A = Mat.ident n)

/-! ### Codec unit (42_codec.md) -/

/-- CINIT (R201 to R203): bad counts are InvalidArgument; otherwise, with `Ti` the inverse of the top block of `V`, the codec is replaced
whole by `G = V x Ti`. That `T` has an inverse, another statement says. -/
def Obligations.CinitConstructsTheCodec : Prop :=
  ∀ (k m : Nat) (s : State),
    (k = 0 ∨ m = 0 ∨ 256 < k + m → endsInError (.cinit k m) .invalidArgument s) ∧
    (1 ≤ k → 1 ≤ m → k + m ≤ 256 →
      ∀ Ti, matInv (Mat.build k k fun r c => gfExp (BitVec.ofNat 8 r) c) = some Ti →
        ∃ t, exec (.cinit k m) s = .next t ∧ t.gvalid = true ∧ t.K = k ∧ t.M = m ∧
          isMatrix t.g (k + m) k (fun r c => xorOver k fun i => gfMul (gfExp (BitVec.ofNat 8 r) i) (Ti.get i c)) ∧
          t = { s with gvalid := t.gvalid, k := t.k, m := t.m, g := t.g, err := none, busy := false } ∧ sameShards s t)

/-- Within its bounds CINIT always succeeds, with the generator matrix in the store, and never ends with Singular: the rows of the Vandermonde matrix are powers of distinct field elements
(R201, R251). -/
def Obligations.CinitNeverEndsWithSingular : Prop :=
  ∀ (k m : Nat) (s : State), 1 ≤ k → 1 ≤ m → k + m ≤ 256 →
    ∃ t, exec (.cinit k m) s = .next t ∧ t.err = none ∧ t.gvalid = true ∧ generator k m = some t.g

/-- R34's second invariant: every `k x k` matrix formed by any `k` different rows of the generator matrix is invertible; so CDEC never
ends with Singular on a store that CINIT has filled (R208), which every step keeps the store to be (another statement). -/
def Obligations.AnyKGeneratorRowsAreInvertible : Prop :=
  (∀ (k m : Nat) (G : Mat) (sel : List Nat), 1 ≤ k → 1 ≤ m → k + m ≤ 256 → generator k m = some G →
    sel.length = k → sel.Nodup → (∀ r, r ∈ sel → r < k + m) →
    ∃ D, matInv (Mat.build k k fun j c => G.get (sel.getD j 0) c) = some D) ∧
  ∀ (off len : Nat) (s : State), Inv s → storeIsGenerator s →
    ∃ t, exec (.cdec off len) s = .next t ∧ t.err ≠ some .singular

/-- Every step keeps R34's first invariant, that whenever `GVALID = 1` the top `K x K` block of the generator store is the identity, and
keeps the store equal to the matrix R203 constructs for `K` and `M`, which carries R34's second invariant to the stored matrix. -/
def Obligations.EveryStepKeepsTheIdentityBlock : Prop :=
  ∀ s t : State, step s = .next t →
    ((s.gvalid = true → topIsIdentity s.g s.K) → t.gvalid = true → topIsIdentity t.g t.K) ∧
    (storeIsGenerator s → storeIsGenerator t)

/-- The shared precondition of CENC, CVFY and CDEC (R204, R255): NoCodec first, then InvalidArgument; CGEN needs a codec too (R209).
In a state whose `K + M` exceeds the shard memory, which no run reaches, the three stop (log entry 7). -/
def Obligations.CodecCommandsNeedAValidShardSet : Prop :=
  ∀ (off len : Nat) (d : Bank) (s : State),
    (s.gvalid = false → endsInError (.cenc off len) .noCodec s ∧ endsInError (.cvfy off len) .noCodec s ∧
      endsInError (.cdec off len) .noCodec s ∧ endsInError (.cgen d) .noCodec s) ∧
    (s.gvalid = true → s.N ≤ 256 →
      (s.shcount.toNat ≠ s.N ∨ (∃ t, t < s.N ∧ s.shlenAt t ≠ s.shlenAt 0) ∨ s.shlenAt 0 < off + len) →
      endsInError (.cenc off len) .invalidArgument s ∧ endsInError (.cvfy off len) .invalidArgument s ∧
        endsInError (.cdec off len) .invalidArgument s) ∧
    (s.gvalid = true → 256 < s.N → exec (.cenc off len) s = .fault .noSuchShard ∧
      exec (.cvfy off len) s = .fault .noSuchShard ∧ exec (.cdec off len) s = .fault .noSuchShard)

/-- CENC (R206, R205): every parity byte in range becomes `PAR` of the data shards; every other byte and all other state is as before. -/
def Obligations.CencWritesEveryParityByteInRange : Prop :=
  ∀ (off len : Nat) (s : State), Memory.wf s.shard = true → validShardSet off len s →
    ∃ t, exec (.cenc off len) s = .next t ∧
      (∀ i p, i < s.M → off ≤ p → p < off + len → memRead t.shard (s.K + i) p = parOf s s.shard i p) ∧
      sameShardsOutside (fun x => decide (s.K ≤ x) && decide (x < s.N)) off len s t ∧
      t = { s with shard := t.shard, err := none, busy := false } ∧ Memory.wf t.shard = true

/-- CVFY (R207): VFY is 1 exactly when every parity byte in range is `PAR` of the data shards; a false result is a success; nothing
else changes. -/
def Obligations.CvfyReportsWhetherParityMatches : Prop :=
  ∀ (off len : Nat) (s : State), validShardSet off len s →
    ∃ t, exec (.cvfy off len) s = .next t ∧
      (t.vfy = true ↔ ∀ i p, i < s.M → off ≤ p → p < off + len → memRead s.shard (s.K + i) p = parOf s s.shard i p) ∧
      t = { s with vfy := t.vfy, err := none, busy := false } ∧ sameShards s t

/-- CDEC (R208): nothing to do when all are present; InsufficientShards with fewer than `K`; else, with `D` the inverse of the `K`
selected rows, the absent data bytes in range from the selected shards, then the absent parity bytes from the completed data shards;
nothing else changes. -/
def Obligations.CdecReconstructsTheAbsentShards : Prop :=
  ∀ (off len : Nat) (s : State), Memory.wf s.shard = true → validShardSet off len s →
    ((∀ x, x < s.N → s.presentAt x = true) → exec (.cdec off len) s = .next { s with err := none, busy := false }) ∧
    ((List.range s.N).countP (fun x => s.presentAt x) < s.K → endsInError (.cdec off len) .insufficientShards s) ∧
    ((∃ x, x < s.N ∧ s.presentAt x = false) → s.K ≤ (List.range s.N).countP (fun x => s.presentAt x) →
      ∀ sel, sel = ((List.range s.N).filter fun x => s.presentAt x).take s.K →
      (matInv (Mat.build s.K s.K fun j c => s.g.get (sel.getD j 0) c) = none →
        endsInError (.cdec off len) .singular s) ∧
      ∀ D, matInv (Mat.build s.K s.K fun j c => s.g.get (sel.getD j 0) c) = some D →
        ∃ t, exec (.cdec off len) s = .next t ∧
          (∀ i p, i < s.K → s.presentAt i = false → off ≤ p → p < off + len →
            memRead t.shard i p = xorOver s.K fun c => gfMul (D.get i c) (memRead s.shard (sel.getD c 0) p)) ∧
          (∀ i p, i < s.M → s.presentAt (s.K + i) = false → off ≤ p → p < off + len →
            memRead t.shard (s.K + i) p = parOf s t.shard i p) ∧
          sameShardsOutside (fun x => decide (x < s.N) && !s.presentAt x) off len s t ∧
          t = { s with shard := t.shard, err := none, busy := false } ∧ Memory.wf t.shard = true)

/-- CGEN (R209): bank `d` becomes a copy of the generator matrix. -/
def Obligations.CgenCopiesTheGeneratorMatrix : Prop :=
  ∀ (d : Bank) (s : State), encode (.cgen d) = 0x34#8 ++ BitVec.ofNat 4 d.val ++ 0#52 ∧
    (s.gvalid = true →
      ∃ t, exec (.cgen d) s = .next t ∧ isMatrix (t.bank d) (s.K + s.M) s.K s.g.get ∧ onlyBankWritten d s t) ∧
    (s.gvalid = false → endsInError (.cgen d) .noCodec s) ∧ Error.noCodec.code = 9

/-- What CENC has written, CVFY over the same range finds correct (R206, R207, R212). -/
def Obligations.VerifyAfterEncodeIsTrue : Prop :=
  ∀ (off len : Nat) (s t : State), Memory.wf s.shard = true → exec (.cenc off len) s = .next t → t.err = none →
    ∃ u, exec (.cvfy off len) t = .next u ∧ u.err = none ∧ u.vfy = true ∧ sameShards t u

/-- The round trip of R212: when the present shards hold, in the range, what they held in an encoded shard set, a CDEC that completes
without error leaves every shard holding it, whatever the absent shards held before. -/
def Obligations.ReconstructionRestoresAnEncodedShardSet : Prop :=
  ∀ (off len : Nat) (s t : State) (orig : Memory), Memory.wf s.shard = true → topIsIdentity s.g s.K →
    (∀ i p, i < s.M → off ≤ p → p < off + len → memRead orig (s.K + i) p = parOf s orig i p) →
    (∀ x p, x < s.N → s.presentAt x = true → off ≤ p → p < off + len → memRead s.shard x p = memRead orig x p) →
    exec (.cdec off len) s = .next t → t.err = none →
    ∀ x p, x < s.N → off ≤ p → p < off + len → memRead t.shard x p = memRead orig x p
end

