-- ==== Sys2Proof/Laws/Bytes.lean ====
section
/-! SUPPORT. Serialised command words and register values (20_memory.md R66): reading back what was written out. -/

namespace Sys2Proof

theorem regOfBytes_extract (v : RegWord) :
    regOfBytes (v.extractLsb' 0 8) (v.extractLsb' 8 8) (v.extractLsb' 16 8) (v.extractLsb' 24 8) = v := by
  simp only [regOfBytes, BitVec.extractLsb'_append_extractLsb'_eq_extractLsb']
  exact BitVec.extractLsb'_eq_self

theorem wordOfBytes_extract (w : Command) :
    wordOfBytes (w.extractLsb' 0 8) (w.extractLsb' 8 8) (w.extractLsb' 16 8) (w.extractLsb' 24 8) (w.extractLsb' 32 8)
      (w.extractLsb' 40 8) (w.extractLsb' 48 8) (w.extractLsb' 56 8) = w := by
  simp only [wordOfBytes, BitVec.extractLsb'_append_extractLsb'_eq_extractLsb']
  exact BitVec.extractLsb'_eq_self

/-- A serialised register value reads back, and the bytes after it are left. -/
theorem readRegBytes_bytesOfReg (v : RegWord) (rest : List Byte) : readRegBytes (bytesOfReg v ++ rest) = some (v, rest) := by
  simp [bytesOfReg, List.range_succ, readRegBytes, regOfBytes_extract]

/-- A serialised command decodes as its word does, and the bytes after it are left. -/
theorem decodeBytes_bytesOfWord {w : Command} {i : Instr} (h : decode w = .ok i) (rest : List Byte) :
    decodeBytes (bytesOfWord w ++ rest) = some (.ok (i, rest)) := by
  simp [bytesOfWord, List.range_succ, decodeBytes, wordOfBytes_extract, h]

end Sys2Proof
end

