-- ==== Sys2Proof/Laws/State.lean ====
section
/-! SUPPORT. One lemma per field per update of State, so that no later proof unfolds a record update. -/

namespace Sys2Proof.Machine

/-! `setElem` writes one element register and nothing else. -/

theorem State.setElem_e (s : State) (i : EReg) (v : Byte) : (s.setElem i v).e = s.e.set i v := rfl
@[simp] theorem State.setElem_banks (s : State) (i : EReg) (v : Byte) : (s.setElem i v).banks = s.banks := rfl
@[simp] theorem State.setElem_gvalid (s : State) (i : EReg) (v : Byte) : (s.setElem i v).gvalid = s.gvalid := rfl
@[simp] theorem State.setElem_k (s : State) (i : EReg) (v : Byte) : (s.setElem i v).k = s.k := rfl
@[simp] theorem State.setElem_m (s : State) (i : EReg) (v : Byte) : (s.setElem i v).m = s.m := rfl
@[simp] theorem State.setElem_g (s : State) (i : EReg) (v : Byte) : (s.setElem i v).g = s.g := rfl
@[simp] theorem State.setElem_busy (s : State) (i : EReg) (v : Byte) : (s.setElem i v).busy = s.busy := rfl
@[simp] theorem State.setElem_vfy (s : State) (i : EReg) (v : Byte) : (s.setElem i v).vfy = s.vfy := rfl
@[simp] theorem State.setElem_err (s : State) (i : EReg) (v : Byte) : (s.setElem i v).err = s.err := rfl
@[simp] theorem State.setElem_shcount (s : State) (i : EReg) (v : Byte) : (s.setElem i v).shcount = s.shcount := rfl
@[simp] theorem State.setElem_shlen (s : State) (i : EReg) (v : Byte) : (s.setElem i v).shlen = s.shlen := rfl
@[simp] theorem State.setElem_present (s : State) (i : EReg) (v : Byte) : (s.setElem i v).present = s.present := rfl
@[simp] theorem State.setElem_shard (s : State) (i : EReg) (v : Byte) : (s.setElem i v).shard = s.shard := rfl
@[simp] theorem State.setElem_cmdreg (s : State) (i : EReg) (v : Byte) : (s.setElem i v).cmdreg = s.cmdreg := rfl
@[simp] theorem State.setElem_inputs (s : State) (i : EReg) (v : Byte) : (s.setElem i v).inputs = s.inputs := rfl
@[simp] theorem State.setElem_replies (s : State) (i : EReg) (v : Byte) : (s.setElem i v).replies = s.replies := rfl

/-- What reading an element register gives after a write. -/
@[simp] theorem State.elem_setElem (s : State) (i j : EReg) (v : Byte) :
    (s.setElem i v).elem j = if i = j then v else s.elem j := by
  simp only [State.elem, State.setElem, Fin.getElem_fin, Vector.getElem_set, Fin.ext_iff]

@[simp] theorem State.bank_setElem (s : State) (i : EReg) (v : Byte) (b : Bank) :
    (s.setElem i v).bank b = s.bank b := rfl

/-! `setBank` replaces one bank and nothing else. -/

theorem State.setBank_banks (s : State) (b : Bank) (A : Mat) : (s.setBank b A).banks = s.banks.set b A := rfl
@[simp] theorem State.setBank_e (s : State) (b : Bank) (A : Mat) : (s.setBank b A).e = s.e := rfl
@[simp] theorem State.setBank_gvalid (s : State) (b : Bank) (A : Mat) : (s.setBank b A).gvalid = s.gvalid := rfl
@[simp] theorem State.setBank_k (s : State) (b : Bank) (A : Mat) : (s.setBank b A).k = s.k := rfl
@[simp] theorem State.setBank_m (s : State) (b : Bank) (A : Mat) : (s.setBank b A).m = s.m := rfl
@[simp] theorem State.setBank_g (s : State) (b : Bank) (A : Mat) : (s.setBank b A).g = s.g := rfl
@[simp] theorem State.setBank_busy (s : State) (b : Bank) (A : Mat) : (s.setBank b A).busy = s.busy := rfl
@[simp] theorem State.setBank_vfy (s : State) (b : Bank) (A : Mat) : (s.setBank b A).vfy = s.vfy := rfl
@[simp] theorem State.setBank_err (s : State) (b : Bank) (A : Mat) : (s.setBank b A).err = s.err := rfl
@[simp] theorem State.setBank_shcount (s : State) (b : Bank) (A : Mat) : (s.setBank b A).shcount = s.shcount := rfl
@[simp] theorem State.setBank_shlen (s : State) (b : Bank) (A : Mat) : (s.setBank b A).shlen = s.shlen := rfl
@[simp] theorem State.setBank_present (s : State) (b : Bank) (A : Mat) : (s.setBank b A).present = s.present := rfl
@[simp] theorem State.setBank_shard (s : State) (b : Bank) (A : Mat) : (s.setBank b A).shard = s.shard := rfl
@[simp] theorem State.setBank_cmdreg (s : State) (b : Bank) (A : Mat) : (s.setBank b A).cmdreg = s.cmdreg := rfl
@[simp] theorem State.setBank_inputs (s : State) (b : Bank) (A : Mat) : (s.setBank b A).inputs = s.inputs := rfl
@[simp] theorem State.setBank_replies (s : State) (b : Bank) (A : Mat) : (s.setBank b A).replies = s.replies := rfl

/-- What reading a bank gives after a bank is replaced. -/
@[simp] theorem State.bank_setBank (s : State) (b c : Bank) (A : Mat) :
    (s.setBank b A).bank c = if b = c then A else s.bank c := by
  simp only [State.bank, State.setBank, Fin.getElem_fin, Vector.getElem_set, Fin.ext_iff]

@[simp] theorem State.elem_setBank (s : State) (b : Bank) (A : Mat) (i : EReg) :
    (s.setBank b A).elem i = s.elem i := rfl

/-! `finish` writes ERR and BUSY and nothing else. -/

@[simp] theorem State.finish_e (s : State) (x : Option Error) : (s.finish x).e = s.e := rfl
@[simp] theorem State.finish_banks (s : State) (x : Option Error) : (s.finish x).banks = s.banks := rfl
@[simp] theorem State.finish_gvalid (s : State) (x : Option Error) : (s.finish x).gvalid = s.gvalid := rfl
@[simp] theorem State.finish_k (s : State) (x : Option Error) : (s.finish x).k = s.k := rfl
@[simp] theorem State.finish_m (s : State) (x : Option Error) : (s.finish x).m = s.m := rfl
@[simp] theorem State.finish_g (s : State) (x : Option Error) : (s.finish x).g = s.g := rfl
@[simp] theorem State.finish_vfy (s : State) (x : Option Error) : (s.finish x).vfy = s.vfy := rfl
@[simp] theorem State.finish_shcount (s : State) (x : Option Error) : (s.finish x).shcount = s.shcount := rfl
@[simp] theorem State.finish_shlen (s : State) (x : Option Error) : (s.finish x).shlen = s.shlen := rfl
@[simp] theorem State.finish_present (s : State) (x : Option Error) : (s.finish x).present = s.present := rfl
@[simp] theorem State.finish_shard (s : State) (x : Option Error) : (s.finish x).shard = s.shard := rfl
@[simp] theorem State.finish_cmdreg (s : State) (x : Option Error) : (s.finish x).cmdreg = s.cmdreg := rfl
@[simp] theorem State.finish_inputs (s : State) (x : Option Error) : (s.finish x).inputs = s.inputs := rfl
@[simp] theorem State.finish_replies (s : State) (x : Option Error) : (s.finish x).replies = s.replies := rfl
@[simp] theorem State.finish_err (s : State) (x : Option Error) : (s.finish x).err = x := rfl
@[simp] theorem State.finish_busy (s : State) (x : Option Error) : (s.finish x).busy = false := rfl
@[simp] theorem State.elem_finish (s : State) (x : Option Error) (i : EReg) : (s.finish x).elem i = s.elem i := rfl
@[simp] theorem State.bank_finish (s : State) (x : Option Error) (b : Bank) : (s.finish x).bank b = s.bank b := rfl
@[simp] theorem State.shlenAt_finish (s : State) (x : Option Error) (t : Nat) : (s.finish x).shlenAt t = s.shlenAt t := rfl
@[simp] theorem State.presentAt_finish (s : State) (x : Option Error) (t : Nat) : (s.finish x).presentAt t = s.presentAt t := rfl
@[simp] theorem State.K_finish (s : State) (x : Option Error) : (s.finish x).K = s.K := rfl
@[simp] theorem State.M_finish (s : State) (x : Option Error) : (s.finish x).M = s.M := rfl
@[simp] theorem State.N_finish (s : State) (x : Option Error) : (s.finish x).N = s.N := rfl
@[simp] theorem State.finish_finish (s : State) (x y : Option Error) : (s.finish x).finish y = s.finish y := rfl

/-! How a command ends: `raise` and `succeed` answer a next state, and change ERR and BUSY only. -/

theorem raise_eq (x : Error) (s : State) : raise x s = .next (s.finish (some x)) := rfl

theorem succeed_eq (s : State) : succeed s = .next (s.finish none) := rfl

/-- Everything an error completion does. -/
theorem raise_spec {x : Error} {s t : State} (h : raise x s = .next t) : t = s.finish (some x) := by
  cases h; rfl

/-- Everything a success does. -/
theorem succeed_spec {s t : State} (h : succeed s = .next t) : t = s.finish none := by
  cases h; rfl

@[simp] theorem raise_ne_fault (x : Error) (s : State) (f : Fault) : raise x s ≠ .fault f := by simp [raise]
@[simp] theorem succeed_ne_fault (s : State) (f : Fault) : succeed s ≠ .fault f := by simp [succeed]
@[simp] theorem raise_ne_refused (x : Error) (s : State) (r : Refusal) : raise x s ≠ .refused r := by simp [raise]
@[simp] theorem succeed_ne_refused (s : State) (r : Refusal) : succeed s ≠ .refused r := by simp [succeed]

/-! The reset state. -/

@[simp] theorem State.reset_elem (i : EReg) : State.reset.elem i = 0 := by
  simp [State.elem, State.reset]

@[simp] theorem State.reset_bank (b : Bank) : State.reset.bank b = Mat.empty := by
  simp [State.bank, State.reset, Mat.empty]

@[simp] theorem State.reset_shlenAt (t : Nat) : State.reset.shlenAt t = 0 := by
  unfold State.shlenAt State.reset
  by_cases h : t < 256 <;> simp [h]

@[simp] theorem State.reset_presentAt (t : Nat) : State.reset.presentAt t = false := by
  simp [State.presentAt, State.reset]

end Sys2Proof.Machine
end

