-- ==== Sys2Proof/Laws/Mat.lean ====
section
/-! SUPPORT. Matrices: shapes and cells of every matrix operation; two well-formed matrices with equal cells are equal. -/

namespace Sys2Proof.Machine

/-! What `wf` says. -/

theorem Mat.wf_iff (A : Mat) : A.wf = true ↔ A.cells.length = A.rows ∧ ∀ x ∈ A.cells, x.length = A.cols := by
  simp [Mat.wf]

theorem Mat.row_length {A : Mat} (h : A.wf = true) {r : Nat} (hr : r < A.rows) : (A.row r).length = A.cols := by
  obtain ⟨h1, h2⟩ := (Mat.wf_iff A).1 h
  have hr' : r < A.cells.length := by omega
  rw [Mat.row, List.getD_eq_getElem _ _ hr']
  exact h2 _ (List.getElem_mem hr')

/-! `build`. -/

@[simp] theorem Mat.build_rows (R C : Nat) (F : Nat → Nat → Byte) : (Mat.build R C F).rows = R := rfl
@[simp] theorem Mat.build_cols (R C : Nat) (F : Nat → Nat → Byte) : (Mat.build R C F).cols = C := rfl

@[simp] theorem Mat.wf_build (R C : Nat) (F : Nat → Nat → Byte) : (Mat.build R C F).wf = true := by
  simp [Mat.wf_iff, Mat.build]

/-- The cells of a built matrix. -/
theorem Mat.get_build {R C : Nat} (F : Nat → Nat → Byte) {r c : Nat} (hr : r < R) (hc : c < C) :
    (Mat.build R C F).get r c = F r c := by
  simp [Mat.get, Mat.row, Mat.build, List.getD_eq_getElem?_getD, hr, hc]

/-- Well-formed matrices with equal dimensions and cells are equal (R160). -/
theorem Mat.ext_get {A B : Mat} (ha : A.wf = true) (hb : B.wf = true) (hr : A.rows = B.rows) (hc : A.cols = B.cols)
    (h : ∀ r c, r < A.rows → c < A.cols → A.get r c = B.get r c) : A = B := by
  obtain ⟨ha1, ha2⟩ := (Mat.wf_iff A).1 ha
  obtain ⟨hb1, hb2⟩ := (Mat.wf_iff B).1 hb
  obtain ⟨R, C, X⟩ := A
  obtain ⟨R', C', Y⟩ := B
  simp only at ha1 ha2 hb1 hb2 hr hc h
  subst hr hc
  congr 1
  refine List.ext_getElem (by omega) fun r h1 h2 => ?_
  refine List.ext_getElem (by rw [ha2 _ (List.getElem_mem h1), hb2 _ (List.getElem_mem h2)]) fun c h3 h4 => ?_
  have := h r c (by omega) (by rw [← ha2 _ (List.getElem_mem h1)]; exact h3)
  simpa [Mat.get, Mat.row, List.getD_eq_getElem?_getD, h1, h2, h3, h4] using this

/-- A matrix rebuilt from its own cells is the same matrix. -/
theorem Mat.build_get {A : Mat} (h : A.wf = true) : Mat.build A.rows A.cols A.get = A :=
  Mat.ext_get (by simp) h rfl rfl fun _ _ hr hc => Mat.get_build _ hr hc

@[simp] theorem Mat.wf_empty : Mat.empty.wf = true := by decide

/-! Writes in place. -/

@[simp] theorem Mat.setCell_rows (A : Mat) (r c : Nat) (v : Byte) : (A.setCell r c v).rows = A.rows := rfl
@[simp] theorem Mat.setCell_cols (A : Mat) (r c : Nat) (v : Byte) : (A.setCell r c v).cols = A.cols := rfl
@[simp] theorem Mat.swapRows_rows (A : Mat) (r1 r2 : Nat) : (A.swapRows r1 r2).rows = A.rows := rfl
@[simp] theorem Mat.swapRows_cols (A : Mat) (r1 r2 : Nat) : (A.swapRows r1 r2).cols = A.cols := rfl

theorem Mat.wf_setCell {A : Mat} (h : A.wf = true) {r : Nat} (hr : r < A.rows) (c : Nat) (v : Byte) :
    (A.setCell r c v).wf = true := by
  have hl := Mat.row_length h hr
  obtain ⟨h1, h2⟩ := (Mat.wf_iff A).1 h
  refine (Mat.wf_iff _).2 ⟨by simp [Mat.setCell, h1], fun x hx => ?_⟩
  rcases List.mem_or_eq_of_mem_set hx with hx | rfl
  · exact h2 x hx
  · simpa using hl

/-- The cells after one cell is written (R173). -/
theorem Mat.get_setCell {A : Mat} (h : A.wf = true) {r c : Nat} (hr : r < A.rows) (hc : c < A.cols) (v : Byte)
    (r' c' : Nat) : (A.setCell r c v).get r' c' = if r = r' ∧ c = c' then v else A.get r' c' := by
  have hl := Mat.row_length h hr
  obtain ⟨h1, _⟩ := (Mat.wf_iff A).1 h
  have hr' : r < A.cells.length := by omega
  simp only [Mat.get, Mat.row, Mat.setCell, List.getD_eq_getElem?_getD, List.getElem?_set]
  simp only [Mat.row, List.getD_eq_getElem?_getD] at hl
  by_cases e : r = r'
  · subst e
    simp only [if_true, hr', Option.getD_some, List.getElem?_set, hl, hc]
    by_cases e2 : c = c' <;> simp [e2]
  · simp [e]

theorem Mat.wf_swapRows {A : Mat} (h : A.wf = true) {r1 r2 : Nat} (h1 : r1 < A.rows) (h2 : r2 < A.rows) :
    (A.swapRows r1 r2).wf = true := by
  have l1 := Mat.row_length h h1
  have l2 := Mat.row_length h h2
  obtain ⟨w1, w2⟩ := (Mat.wf_iff A).1 h
  refine (Mat.wf_iff _).2 ⟨by simp [Mat.swapRows, w1], fun x hx => ?_⟩
  rcases List.mem_or_eq_of_mem_set hx with hx | rfl
  · rcases List.mem_or_eq_of_mem_set hx with hx | rfl
    · exact w2 x hx
    · exact l2
  · exact l1

/-- The rows after two rows are exchanged (R178). -/
theorem Mat.row_swapRows {A : Mat} (h : A.wf = true) {r1 r2 : Nat} (h1 : r1 < A.rows) (h2 : r2 < A.rows) (r : Nat) :
    (A.swapRows r1 r2).row r = if r = r2 then A.row r1 else if r = r1 then A.row r2 else A.row r := by
  obtain ⟨w1, _⟩ := (Mat.wf_iff A).1 h
  have h1' : r1 < A.cells.length := by omega
  have h2' : r2 < A.cells.length := by omega
  simp only [Mat.row, Mat.swapRows, List.getD_eq_getElem?_getD, List.getElem?_set]
  by_cases e : r2 = r
  · subst e; simp [h2']
  · by_cases e1 : r1 = r
    · subst e1; simp [h1', e, Ne.symm e]
    · simp [e, e1, Ne.symm e, Ne.symm e1]

/-- The cells after two rows are exchanged (R178). -/
theorem Mat.get_swapRows {A : Mat} (h : A.wf = true) {r1 r2 : Nat} (h1 : r1 < A.rows) (h2 : r2 < A.rows) (r c : Nat) :
    (A.swapRows r1 r2).get r c = if r = r2 then A.get r1 c else if r = r1 then A.get r2 c else A.get r c := by
  unfold Mat.get
  rw [Mat.row_swapRows h h1 h2]
  split
  · rfl
  · split <;> rfl

/-! The matrix functions: each is a built matrix. -/

@[simp] theorem Mat.zero_rows (R C : Nat) : (Mat.zero R C).rows = R := rfl
@[simp] theorem Mat.zero_cols (R C : Nat) : (Mat.zero R C).cols = C := rfl
@[simp] theorem Mat.wf_zero (R C : Nat) : (Mat.zero R C).wf = true := Mat.wf_build _ _ _
theorem Mat.get_zero {R C r c : Nat} (hr : r < R) (hc : c < C) : (Mat.zero R C).get r c = 0 := Mat.get_build _ hr hc

@[simp] theorem Mat.ident_rows (n : Nat) : (Mat.ident n).rows = n := rfl
@[simp] theorem Mat.ident_cols (n : Nat) : (Mat.ident n).cols = n := rfl
@[simp] theorem Mat.wf_ident (n : Nat) : (Mat.ident n).wf = true := Mat.wf_build _ _ _
theorem Mat.get_ident {n r c : Nat} (hr : r < n) (hc : c < n) : (Mat.ident n).get r c = if r = c then 1 else 0 :=
  Mat.get_build _ hr hc

@[simp] theorem Mat.mul_rows (A B : Mat) : (A.mul B).rows = A.rows := rfl
@[simp] theorem Mat.mul_cols (A B : Mat) : (A.mul B).cols = B.cols := rfl
@[simp] theorem Mat.wf_mul (A B : Mat) : (A.mul B).wf = true := Mat.wf_build _ _ _
theorem Mat.get_mul {A B : Mat} {r c : Nat} (hr : r < A.rows) (hc : c < B.cols) :
    (A.mul B).get r c = xorOver A.cols fun i => gfMul (A.get r i) (B.get i c) := Mat.get_build _ hr hc

@[simp] theorem Mat.augment_rows (A B : Mat) : (A.augment B).rows = A.rows := rfl
@[simp] theorem Mat.augment_cols (A B : Mat) : (A.augment B).cols = A.cols + B.cols := rfl
@[simp] theorem Mat.wf_augment (A B : Mat) : (A.augment B).wf = true := Mat.wf_build _ _ _
theorem Mat.get_augment {A B : Mat} {r c : Nat} (hr : r < A.rows) (hc : c < A.cols + B.cols) :
    (A.augment B).get r c = if c < A.cols then A.get r c else B.get r (c - A.cols) := Mat.get_build _ hr hc

@[simp] theorem Mat.sub_rows (A : Mat) (r0 c0 r1 c1 : Nat) : (A.sub r0 c0 r1 c1).rows = r1 - r0 := rfl
@[simp] theorem Mat.sub_cols (A : Mat) (r0 c0 r1 c1 : Nat) : (A.sub r0 c0 r1 c1).cols = c1 - c0 := rfl
@[simp] theorem Mat.wf_sub (A : Mat) (r0 c0 r1 c1 : Nat) : (A.sub r0 c0 r1 c1).wf = true := Mat.wf_build _ _ _
theorem Mat.get_sub {A : Mat} {r0 c0 r1 c1 r c : Nat} (hr : r < r1 - r0) (hc : c < c1 - c0) :
    (A.sub r0 c0 r1 c1).get r c = A.get (r0 + r) (c0 + c) := Mat.get_build _ hr hc

/-! Elimination: shapes and cells of its row operations (R162). -/

@[simp] theorem scaleRow_rows (W : Mat) (c : Nat) : (scaleRow W c).rows = W.rows := rfl
@[simp] theorem scaleRow_cols (W : Mat) (c : Nat) : (scaleRow W c).cols = W.cols := rfl
@[simp] theorem eliminate_rows (W : Mat) (c : Nat) (p : Nat → Bool) : (eliminate W c p).rows = W.rows := rfl
@[simp] theorem eliminate_cols (W : Mat) (c : Nat) (p : Nat → Bool) : (eliminate W c p).cols = W.cols := rfl

theorem wf_scaleRow {W : Mat} (h : W.wf = true) {c : Nat} (hc : c < W.rows) : (scaleRow W c).wf = true := by
  have l := Mat.row_length h hc
  obtain ⟨w1, w2⟩ := (Mat.wf_iff W).1 h
  refine (Mat.wf_iff _).2 ⟨by simp [scaleRow, w1], fun x hx => ?_⟩
  rcases List.mem_or_eq_of_mem_set hx with hx | rfl
  · exact w2 x hx
  · simpa using l

theorem get_scaleRow {W : Mat} (h : W.wf = true) {c : Nat} (hc : c < W.rows) (r j : Nat) (hj : j < W.cols) :
    (scaleRow W c).get r j = if r = c then gfQuot (W.get c j) (W.get c c) else W.get r j := by
  have l := Mat.row_length h hc
  obtain ⟨w1, _⟩ := (Mat.wf_iff W).1 h
  have hc' : c < W.cells.length := by omega
  unfold Mat.get Mat.row scaleRow
  simp only [List.getD_eq_getElem?_getD, List.getElem?_set]
  by_cases e : c = r
  · subst e
    simp only [if_true, hc', Option.getD_some, List.getElem?_map]
    have hj' : j < (W.row c).length := by omega
    simp only [Mat.row, List.getD_eq_getElem?_getD] at hj'
    simp [Mat.row, Mat.get, List.getD_eq_getElem?_getD, hc'] at hj' ⊢
    simp [hj']
  · simp [e, Ne.symm e]

theorem rowMinus_length {row pivot : List Byte} (f : Byte) (h : row.length = pivot.length) :
    (rowMinus row f pivot).length = row.length := by
  simp [rowMinus, h]

theorem rowMinus_getD {row pivot : List Byte} (f : Byte) (h : row.length = pivot.length) (j : Nat)
    (hj : j < row.length) : (rowMinus row f pivot).getD j 0 = gfSub (row.getD j 0) (gfMul f (pivot.getD j 0)) := by
  have hj' : j < pivot.length := by omega
  simp [rowMinus, List.getD_eq_getElem?_getD, hj, hj']

theorem eliminate_row {W : Mat} {c : Nat} {p : Nat → Bool} {r : Nat} (hr : r < W.rows) :
    (eliminate W c p).row r = if p r then rowMinus (W.row r) (W.get r c) (W.row c) else W.row r := by
  simp [Mat.row, eliminate, List.getD_eq_getElem?_getD, hr]

theorem wf_eliminate {W : Mat} (h : W.wf = true) {c : Nat} (hc : c < W.rows) (p : Nat → Bool) :
    (eliminate W c p).wf = true := by
  refine (Mat.wf_iff _).2 ⟨by simp [eliminate], fun x hx => ?_⟩
  simp only [eliminate, List.mem_map, List.mem_range] at hx
  obtain ⟨r, hr, rfl⟩ := hx
  have lr := Mat.row_length h hr
  have lc := Mat.row_length h hc
  split
  · rw [rowMinus_length _ (by omega)]; exact lr
  · exact lr

theorem get_eliminate {W : Mat} (h : W.wf = true) {c : Nat} (hc : c < W.rows) {p : Nat → Bool} {r j : Nat}
    (hr : r < W.rows) (hj : j < W.cols) : (eliminate W c p).get r j =
      if p r then gfSub (W.get r j) (gfMul (W.get r c) (W.get c j)) else W.get r j := by
  have lr := Mat.row_length h hr
  have lc := Mat.row_length h hc
  rw [Mat.get, eliminate_row hr]
  split
  · rw [rowMinus_getD _ (by omega) _ (by omega)]; rfl
  · rfl

/-- The pivot search picks a row at or below the diagonal whose entry is not 0, and all rows between are 0 there. -/
theorem pivotRow_some {W : Mat} {n c r : Nat} (h : pivotRow W n c = some r) :
    c ≤ r ∧ r < n ∧ W.get r c ≠ 0 ∧ ∀ x, c ≤ x → x < r → W.get x c = 0 := by
  unfold pivotRow at h
  obtain ⟨h1, k, hk, rfl, hlt⟩ := List.find?_eq_some_iff_getElem.1 h
  simp only [List.length_range'] at hk
  simp only [List.getElem_range', bne_iff_ne, Nat.one_mul] at h1 ⊢
  refine ⟨by omega, by omega, h1, fun x hx hx' => ?_⟩
  have := hlt (x - c) (by omega)
  simp only [List.getElem_range', Nat.one_mul, Bool.not_eq_true', bne_eq_false_iff_eq] at this
  rwa [Nat.add_sub_cancel' hx] at this

/-- The pivot search fails exactly when the column is 0 from the diagonal down. -/
theorem pivotRow_none {W : Mat} {n c : Nat} (h : pivotRow W n c = none) :
    ∀ x, c ≤ x → x < n → W.get x c = 0 := by
  unfold pivotRow at h
  rw [List.find?_eq_none] at h
  intro x hx hn
  have := h x (by simp only [List.mem_range'_1]; omega)
  simpa using this

/-- One column of the forward pass keeps the shape. -/
theorem forwardStep_shape {n : Nat} {W V : Mat} {c : Nat} (h : W.wf = true) (hr : W.rows = n) (hc : c < n)
    (hv : forwardStep n W c = some V) : V.wf = true ∧ V.rows = n ∧ V.cols = W.cols := by
  unfold forwardStep at hv
  split at hv
  · cases hv
  · rename_i r hp
    obtain ⟨h1, h2, -⟩ := pivotRow_some hp
    cases hv
    have w1 := Mat.wf_swapRows h (r1 := c) (r2 := r) (by omega) (by omega)
    have w2 := wf_scaleRow w1 (c := c) (by simpa [hr] using hc)
    exact ⟨wf_eliminate w2 (by simpa [hr] using hc) _, by simp [hr], by simp⟩

/-- The forward pass keeps the shape. -/
theorem forwardPass_shape {n : Nat} {W V : Mat} (h : W.wf = true) (hr : W.rows = n) {c : Nat} (hc : c ≤ n)
    (hv : forwardPass n W c = some V) : V.wf = true ∧ V.rows = n ∧ V.cols = W.cols := by
  induction c generalizing V with
  | zero => cases hv; exact ⟨h, hr, rfl⟩
  | succ c ih =>
    simp only [forwardPass] at hv
    split at hv
    · cases hv
    · rename_i U hu
      obtain ⟨w, r, k⟩ := ih (by omega) hu
      obtain ⟨w', r', k'⟩ := forwardStep_shape w r (by omega) hv
      exact ⟨w', r', k'.trans k⟩

/-- An inverse has the shape of the matrix it inverts. -/
theorem matInv_shape {A X : Mat} (h : matInv A = some X) : X.wf = true ∧ X.rows = A.rows ∧ X.cols = A.rows := by
  unfold matInv at h
  split at h
  · cases h
  · cases h
    refine ⟨by simp, by simp, ?_⟩
    simp only [Mat.sub_cols]
    omega

/-- The generator matrix has the shape of R203. -/
theorem generator_shape {k m : Nat} {G : Mat} (h : generator k m = some G) :
    G.wf = true ∧ G.rows = k + m ∧ G.cols = k := by
  unfold generator at h
  split at h
  · cases h
  · rename_i Ti ht
    cases h
    refine ⟨by simp, rfl, ?_⟩
    rw [Mat.mul_cols, (matInv_shape ht).2.2]
    simp [vanderTop]

end Sys2Proof.Machine
end

