-- ==== Sys2Proof/Laws/Memory.lean ====
section
/-! SUPPORT. Shard memory: read after write, the canonical form, and what the codec's writes leave behind. -/

namespace Sys2Proof.Machine

@[simp] theorem Memory.read_nil (x : Nat) : Memory.read [] x = Memory.unlisted := rfl

/-- In a canonical list that starts at `lo`, a key below `lo` is not listed. -/
theorem Memory.read_below {mem : Memory} {lo x : Nat} (h : Memory.wfFrom lo mem = true) (hx : x < lo) :
    Memory.read mem x = Memory.unlisted := by
  induction mem generalizing lo with
  | nil => rfl
  | cons c rest ih =>
    obtain ⟨a, v⟩ := c
    simp only [Memory.wfFrom, Bool.and_eq_true, decide_eq_true_eq] at h
    have ne : a ≠ x := by omega
    simp only [Memory.read, if_neg ne]
    exact ih h.2 (by omega)

theorem Memory.wfFrom_mono {mem : Memory} {lo lo' : Nat} (h : Memory.wfFrom lo mem = true) (hle : lo' ≤ lo) :
    Memory.wfFrom lo' mem = true := by
  cases mem with
  | nil => rfl
  | cons c rest =>
    obtain ⟨a, v⟩ := c
    simp only [Memory.wfFrom, Bool.and_eq_true, decide_eq_true_eq] at h ⊢
    exact ⟨⟨⟨by omega, h.1.1.2⟩, h.1.2⟩, h.2⟩

/-- A write keeps the canonical form. -/
theorem Memory.wfFrom_write {mem : Memory} {lo x : Nat} {v : Byte} (h : Memory.wfFrom lo mem = true)
    (hlo : lo ≤ x) (hx : x < Memory.size) : Memory.wfFrom lo (Memory.write mem x v) = true := by
  induction mem generalizing lo with
  | nil =>
    simp only [Memory.write]
    split
    · rfl
    · simp [Memory.wfFrom, *]
  | cons c rest ih =>
    obtain ⟨a, u⟩ := c
    have h' := h
    simp only [Memory.wfFrom, Bool.and_eq_true, decide_eq_true_eq] at h
    simp only [Memory.write]
    split
    · split
      · exact h'
      · simp only [Memory.wfFrom, Bool.and_eq_true, decide_eq_true_eq]
        refine ⟨⟨⟨hlo, hx⟩, by simp [*]⟩, ⟨⟨by omega, h.1.1.2⟩, h.1.2⟩, h.2⟩
    · split
      · split
        · exact Memory.wfFrom_mono h.2 (by omega)
        · subst_vars
          simp only [Memory.wfFrom, Bool.and_eq_true, decide_eq_true_eq]
          exact ⟨⟨⟨hlo, hx⟩, by simp [*]⟩, h.2⟩
      · simp only [Memory.wfFrom, Bool.and_eq_true, decide_eq_true_eq]
        exact ⟨h.1, ih h.2 (by omega)⟩

theorem Memory.wf_write {mem : Memory} {x : Nat} {v : Byte} (h : Memory.wf mem = true) (hx : x < Memory.size) :
    Memory.wf (Memory.write mem x v) = true :=
  Memory.wfFrom_write h (Nat.zero_le _) hx

/-- Read after write. -/
theorem Memory.read_write {mem : Memory} {lo x : Nat} (h : Memory.wfFrom lo mem = true) (v : Byte) (y : Nat) :
    Memory.read (Memory.write mem x v) y = if x = y then v else Memory.read mem y := by
  induction mem generalizing lo with
  | nil =>
    simp only [Memory.write]
    split <;> simp [Memory.read, *]
  | cons c rest ih =>
    obtain ⟨a, u⟩ := c
    simp only [Memory.wfFrom, Bool.and_eq_true, decide_eq_true_eq] at h
    have below : ∀ z, z < a + 1 → Memory.read rest z = Memory.unlisted := fun z hz => Memory.read_below h.2 hz
    simp only [Memory.write]
    split
    · split
      · by_cases e : x = y
        · have ne : a ≠ y := by omega
          simp only [Memory.read, if_neg ne, if_pos e]
          rw [below y (by omega)]
          simp [*]
        · simp [e]
      · simp [Memory.read]
    · split
      · subst_vars
        split
        · by_cases e : a = y
          · subst e
            simp [below a (by omega), *]
          · simp [Memory.read, e]
        · by_cases e : a = y <;> simp [Memory.read, e]
      · simp only [Memory.read]
        by_cases e : a = y
        · have ne : x ≠ y := by omega
          simp [e, ne]
        · simp [e, ih h.2]

/-- A canonical list is determined by its reads. -/
theorem Memory.ext {a b : Memory} {lo : Nat} (ha : Memory.wfFrom lo a = true) (hb : Memory.wfFrom lo b = true)
    (h : ∀ x, Memory.read a x = Memory.read b x) : a = b := by
  induction a generalizing b lo with
  | nil =>
    cases b with
    | nil => rfl
    | cons c rest =>
      obtain ⟨y, v⟩ := c
      simp only [Memory.wfFrom, Bool.and_eq_true] at hb
      have := h y
      simp [Memory.read] at this
      simp [← this] at hb
  | cons c rest ih =>
    obtain ⟨x, u⟩ := c
    simp only [Memory.wfFrom, Bool.and_eq_true, decide_eq_true_eq, bne_iff_ne] at ha
    cases b with
    | nil =>
      have := h x
      simp [Memory.read] at this
      exact absurd this ha.1.2
    | cons d rest' =>
      obtain ⟨y, v⟩ := d
      simp only [Memory.wfFrom, Bool.and_eq_true, decide_eq_true_eq, bne_iff_ne] at hb
      have hxy : x = y := by
        rcases Nat.lt_trichotomy x y with lt | eq | gt
        · have := h x
          have ne : y ≠ x := by omega
          simp only [Memory.read, if_true, if_neg ne] at this
          rw [Memory.read_below hb.2 (by omega)] at this
          exact absurd this ha.1.2
        · exact eq
        · have := h y
          have ne : x ≠ y := by omega
          simp only [Memory.read, if_true, if_neg ne] at this
          rw [Memory.read_below ha.2 (by omega)] at this
          exact absurd this.symm hb.1.2
      subst hxy
      have huv : u = v := by simpa [Memory.read] using h x
      subst huv
      have hrest : rest = rest' := by
        refine ih ha.2 hb.2 fun z => ?_
        by_cases e : x = z
        · subst e
          rw [Memory.read_below ha.2 (by omega), Memory.read_below hb.2 (by omega)]
        · simpa [Memory.read, e] using h z
      rw [hrest]

/-! Bytes of shards: the key of `(s, p)` is one to one for `p < 65536`. -/

theorem shardKey_inj {s s' p p' : Nat} (hp : p < 65536) (hp' : p' < 65536) :
    shardKey s p = shardKey s' p' ↔ s = s' ∧ p = p' := by
  unfold shardKey
  omega

theorem shardKey_lt {s p : Nat} (hs : s < 256) (hp : p < 65536) : shardKey s p < Memory.size := by
  unfold shardKey Memory.size
  omega

theorem memRead_memWrite {mem : Memory} {s p s' p' : Nat} (h : Memory.wf mem = true) (hp : p < 65536)
    (hp' : p' < 65536) (v : Byte) :
    memRead (memWrite mem s p v) s' p' = if s = s' ∧ p = p' then v else memRead mem s' p' := by
  unfold memRead memWrite
  rw [Memory.read_write h]
  simp only [shardKey_inj hp hp']

theorem wf_memWrite {mem : Memory} {s p : Nat} {v : Byte} (h : Memory.wf mem = true) (hs : s < 256)
    (hp : p < 65536) : Memory.wf (memWrite mem s p v) = true :=
  Memory.wf_write h (shardKey_lt hs hp)

/-- Shard memory after `writeRange`: canonical, and the range holds `f`. -/
theorem writeRange_spec {mem : Memory} {s off len : Nat} {f : Nat → Byte} (h : Memory.wf mem = true)
    (hs : s < 256) (hr : off + len ≤ 65536) :
    Memory.wf (writeRange mem s off f len) = true ∧
      ∀ s' p', p' < 65536 → memRead (writeRange mem s off f len) s' p' =
        if s = s' ∧ off ≤ p' ∧ p' < off + len then f p' else memRead mem s' p' := by
  induction len with
  | zero =>
    refine ⟨h, fun s' p' _ => ?_⟩
    rw [if_neg (by omega)]
    rfl
  | succ len ih =>
    obtain ⟨w, r⟩ := ih (by omega)
    refine ⟨wf_memWrite w hs (by omega), fun s' p' hp' => ?_⟩
    simp only [writeRange]
    rw [memRead_memWrite w (by omega) hp', r s' p' hp']
    by_cases e : s = s' ∧ off + len = p'
    · rw [if_pos e, if_pos ⟨e.1, by omega, by omega⟩, e.2]
    · rw [if_neg e]
      by_cases e2 : s = s' ∧ off ≤ p' ∧ p' < off + len
      · rw [if_pos e2, if_pos ⟨e2.1, e2.2.1, by omega⟩]
      · rw [if_neg e2, if_neg (by omega)]

/-- Shard memory after `writeShards`, for a value function that does not read the bytes the operation writes: canonical, the
named shards hold the values in range, and every other byte is as before. -/
theorem writeShards_spec {base off len count : Nat} {which : Nat → Bool} {f : Memory → Nat → Nat → Byte}
    {mem : Memory} (h : Memory.wf mem = true) (hs : base + count ≤ 256) (hr : off + len ≤ 65536)
    (hf : ∀ mem' i p, i < count → off ≤ p → p < off + len →
      (∀ s' p', p' < 65536 → ¬ (∃ j, j < count ∧ which j = true ∧ base + j = s' ∧ off ≤ p' ∧ p' < off + len) →
        memRead mem' s' p' = memRead mem s' p') → f mem' i p = f mem i p) :
    Memory.wf (writeShards base which f off len count mem) = true ∧
      ∀ s' p', p' < 65536 → memRead (writeShards base which f off len count mem) s' p' =
        if base ≤ s' ∧ s' < base + count ∧ which (s' - base) = true ∧ off ≤ p' ∧ p' < off + len
        then f mem (s' - base) p' else memRead mem s' p' := by
  suffices H : ∀ n, n ≤ count → Memory.wf (writeShards base which f off len n mem) = true ∧
      ∀ s' p', p' < 65536 → memRead (writeShards base which f off len n mem) s' p' =
        if base ≤ s' ∧ s' < base + n ∧ which (s' - base) = true ∧ off ≤ p' ∧ p' < off + len
        then f mem (s' - base) p' else memRead mem s' p' from H count (Nat.le_refl _)
  intro n
  induction n with
  | zero =>
    intro _
    refine ⟨h, fun s' p' _ => ?_⟩
    rw [if_neg (by omega)]
    rfl
  | succ n ih =>
    intro hn
    obtain ⟨w, r⟩ := ih (by omega)
    simp only [writeShards]
    by_cases hw : which n = true
    · rw [if_pos hw]
      have fval : ∀ p, off ≤ p → p < off + len →
          f (writeShards base which f off len n mem) n p = f mem n p := by
        intro p hp1 hp2
        refine hf _ n p (by omega) hp1 hp2 fun s' p' hp' hno => ?_
        rw [r s' p' hp', if_neg]
        rintro ⟨h1, h2, h3, h4, h5⟩
        exact hno ⟨s' - base, by omega, h3, by omega, h4, h5⟩
      obtain ⟨w', r'⟩ := writeRange_spec (f := f (writeShards base which f off len n mem) n) w
        (show base + n < 256 by omega) hr
      refine ⟨w', fun s' p' hp' => ?_⟩
      rw [r' s' p' hp', r s' p' hp']
      by_cases e : base + n = s' ∧ off ≤ p' ∧ p' < off + len
      · obtain ⟨rfl, e1, e2⟩ := e
        have hsub : base + n - base = n := by omega
        rw [if_pos ⟨rfl, e1, e2⟩, fval p' e1 e2, hsub, if_pos ⟨by omega, by omega, hw, e1, e2⟩]
      · rw [if_neg e]
        by_cases e2 : base ≤ s' ∧ s' < base + n ∧ which (s' - base) = true ∧ off ≤ p' ∧ p' < off + len
        · rw [if_pos e2, if_pos ⟨e2.1, by omega, e2.2.2⟩]
        · rw [if_neg e2, if_neg]
          rintro ⟨h1, h2, h3⟩
          rcases Nat.lt_or_ge s' (base + n) with lt | ge
          · exact e2 ⟨h1, lt, h3⟩
          · exact e ⟨by omega, h3.2⟩
    · rw [if_neg hw]
      refine ⟨w, fun s' p' hp' => ?_⟩
      rw [r s' p' hp']
      by_cases e2 : base ≤ s' ∧ s' < base + n ∧ which (s' - base) = true ∧ off ≤ p' ∧ p' < off + len
      · rw [if_pos e2, if_pos ⟨e2.1, by omega, e2.2.2⟩]
      · rw [if_neg e2, if_neg]
        rintro ⟨h1, h2, h3, h4⟩
        rcases Nat.lt_or_ge s' (base + n) with lt | ge
        · exact e2 ⟨h1, lt, h3, h4⟩
        · have : s' - base = n := by omega
          rw [this] at h3
          exact hw h3

/-- Shard memory after a reset event is canonical, whatever it holds. -/
theorem wf_shardContents (bytes : List ShardByte) : Memory.wf (shardContents bytes) = true := by
  unfold shardContents
  suffices H : ∀ mem, Memory.wf mem = true →
      Memory.wf (bytes.foldl (fun mem b => memWrite mem b.s.toNat b.p.toNat b.v) mem) = true from H [] rfl
  induction bytes with
  | nil => exact fun _ h => h
  | cons b rest ih =>
    intro mem h
    exact ih _ (wf_memWrite h (by have := b.s.isLt; omega) (by have := b.p.isLt; omega))

end Sys2Proof.Machine
end

