-- ==== Sys2Proof/Laws/Ops.lean ====
section
/-! SUPPORT. What the shared operations of a command can do, said once: validation, selection of shards, the parity function, and
the shapes of an outcome. -/

namespace Sys2Proof.Machine

/-! The shared precondition (R204). -/

theorem shardSetOk_iff (off len : Nat) (s : State) : shardSetOk off len s = true ↔
    s.shcount.toNat = s.N ∧ (∀ t, t < s.N → s.shlenAt t = s.shlenAt 0) ∧ off + len ≤ s.shlenAt 0 := by
  simp [shardSetOk, and_assoc]

/-- With a valid shard set the command goes on. -/
theorem withValid_valid {off len : Nat} {s : State} (h : validShardSet off len s) (body : Result) :
    withValid off len s body = body := by
  obtain ⟨h1, h2, h3⟩ := h
  have : shardSetOk off len s = true := (shardSetOk_iff off len s).2 h3
  simp [withValid, h1, this, Nat.not_lt.2 h2]

/-- Everything the shared precondition can do. -/
theorem withValid_cases (off len : Nat) (s : State) (body : Result) :
    (s.gvalid = false ∧ withValid off len s body = raise .noCodec s) ∨
    (s.gvalid = true ∧ Config.NSH < s.N ∧ withValid off len s body = .fault .noSuchShard) ∨
    (s.gvalid = true ∧ s.N ≤ Config.NSH ∧ ¬ validShardSet off len s ∧
      withValid off len s body = raise .invalidArgument s) ∨
    (validShardSet off len s ∧ withValid off len s body = body) := by
  by_cases v : validShardSet off len s
  · exact .inr (.inr (.inr ⟨v, withValid_valid v body⟩))
  · cases hg : s.gvalid
    · exact .inl ⟨rfl, by simp [withValid, hg]⟩
    · by_cases hn : Config.NSH < s.N
      · exact .inr (.inl ⟨rfl, hn, by simp [withValid, hg, hn]⟩)
      · have hok : shardSetOk off len s = false := by
          rw [← Bool.not_eq_true, shardSetOk_iff]
          exact fun h => v ⟨hg, Nat.not_lt.1 hn, h⟩
        exact .inr (.inr (.inl ⟨rfl, Nat.not_lt.1 hn, v, by simp [withValid, hg, hn, hok]⟩))

/-- A length register holds at most 65535 (R39), so a valid range ends inside a buffer (R62). -/
theorem State.shlenAt_lt (s : State) (t : Nat) : s.shlenAt t < 65536 := (s.shlen[t]?.getD 0#16).isLt

theorem validShardSet.range_le {off len : Nat} {s : State} (h : validShardSet off len s) : off + len ≤ 65536 := by
  have := h.2.2.2.2
  have := s.shlenAt_lt 0
  omega

/-! The present shards (R208). -/

theorem mem_presentShards {s : State} {n t : Nat} : t ∈ presentShards s n ↔ t < n ∧ s.presentAt t = true := by
  simp [presentShards]

theorem presentShards_length_le (s : State) (n : Nat) : (presentShards s n).length ≤ n := by
  simpa [presentShards] using List.length_filter_le (fun t => s.presentAt t) (List.range n)

/-- The selected shards are in ascending order. -/
theorem presentShards_pairwise (s : State) (n : Nat) : (presentShards s n).Pairwise (· < ·) :=
  List.Pairwise.filter _ List.pairwise_lt_range

/-- All of `0..n-1` are present exactly when the count is `n`. -/
theorem presentShards_all {s : State} {n : Nat} :
    (presentShards s n).length = n ↔ ∀ t, t < n → s.presentAt t = true := by
  constructor
  · intro h t ht
    have := List.length_filter_eq_length_iff.1
      (show ((List.range n).filter fun t => s.presentAt t).length = (List.range n).length by
        simpa [presentShards] using h)
    exact this t (by simpa using ht)
  · intro h
    have := List.length_filter_eq_length_iff.2
      (show ∀ t ∈ List.range n, (fun t => s.presentAt t) t = true from fun t ht => h t (by simpa using ht))
    simpa [presentShards] using this

/-- What a selected shard is: present, and one of the set. -/
theorem selected_mem {s : State} {n k c : Nat} (hk : k ≤ (presentShards s n).length) (hc : c < k) :
    ((presentShards s n).take k).getD c 0 < n ∧ s.presentAt (((presentShards s n).take k).getD c 0) = true := by
  have hl : c < ((presentShards s n).take k).length := by simp; omega
  have hm : ((presentShards s n).take k).getD c 0 ∈ presentShards s n := by
    rw [List.getD_eq_getElem _ _ hl]
    exact List.mem_of_mem_take (List.getElem_mem hl)
  exact mem_presentShards.1 hm

/-! `xorOver`, `parity` and `decodedByte` depend on the values they read only. -/

theorem xorOver_congr {n : Nat} {f g : Nat → Byte} (h : ∀ i, i < n → f i = g i) : xorOver n f = xorOver n g := by
  induction n with
  | zero => rfl
  | succ n ih => rw [xorOver, xorOver, ih fun i hi => h i (by omega), h n (by omega)]

/-- `PAR` reads the `k` data shards at its own position only (R205, R210). -/
theorem parity_congr {g : Mat} {k : Nat} {mem mem' : Memory} {i p : Nat}
    (h : ∀ c, c < k → memRead mem c p = memRead mem' c p) : parity g k mem i p = parity g k mem' i p :=
  xorOver_congr fun c hc => by rw [h c hc]

/-- A decoded byte reads the selected shards at its own position only (R208, R210). -/
theorem decodedByte_congr {D : Mat} {k : Nat} {sel : List Nat} {mem mem' : Memory} {i p : Nat}
    (h : ∀ c, c < k → memRead mem (sel.getD c 0) p = memRead mem' (sel.getD c 0) p) :
    decodedByte D k sel mem i p = decodedByte D k sel mem' i p :=
  xorOver_congr fun c hc => by rw [h c hc]

/-- Shard memory after CENC's writes (R206): canonical, the named parity bytes in range are `PAR` of the data shards, every other
byte is as before. -/
theorem parityWrites_spec {g : Mat} {k m off len : Nat} {which : Nat → Bool} {mem : Memory} (h : Memory.wf mem = true)
    (hn : k + m ≤ 256) (hr : off + len ≤ 65536) :
    Memory.wf (writeShards k which (parity g k) off len m mem) = true ∧
      ∀ s' p', p' < 65536 → memRead (writeShards k which (parity g k) off len m mem) s' p' =
        if k ≤ s' ∧ s' < k + m ∧ which (s' - k) = true ∧ off ≤ p' ∧ p' < off + len
        then parity g k mem (s' - k) p' else memRead mem s' p' :=
  writeShards_spec h hn hr fun _ _ p _ _ hp hsame =>
    parity_congr fun c hc => hsame c p (by omega) (by rintro ⟨j, _, _, hj, _⟩; omega)

/-- Shard memory after step 5 of CDEC (R208): canonical, the absent data bytes in range are decoded from the selected shards, every
other byte is as before. -/
theorem dataWrites_spec {D : Mat} {k off len : Nat} {sel : List Nat} {which : Nat → Bool} {mem : Memory}
    (h : Memory.wf mem = true) (hn : k ≤ 256) (hr : off + len ≤ 65536)
    (hsel : ∀ c, c < k → ¬ (sel.getD c 0 < k ∧ which (sel.getD c 0) = true)) :
    Memory.wf (writeShards 0 which (decodedByte D k sel) off len k mem) = true ∧
      ∀ s' p', p' < 65536 → memRead (writeShards 0 which (decodedByte D k sel) off len k mem) s' p' =
        if s' < k ∧ which s' = true ∧ off ≤ p' ∧ p' < off + len
        then decodedByte D k sel mem s' p' else memRead mem s' p' := by
  have := writeShards_spec (base := 0) (count := k) (which := which) (f := decodedByte D k sel) (off := off) (len := len)
    h (by omega) hr fun mem' i p _ _ hp hsame =>
      decodedByte_congr fun c hc => hsame _ p (by omega) (by
        rintro ⟨j, hj, hw, he, _⟩
        rw [Nat.zero_add] at he
        exact hsel c hc ⟨by omega, he ▸ hw⟩)
  simpa using this

/-! The shapes of an outcome: error completion, success, or the one fault. -/

/-- The state a command leaves when it does not end in an error, before ERR and BUSY are set. -/
inductive Ends (s : State) : Result → Prop where
  | error (x : Error) : Ends s (raise x s)
  | success (s' : State) : Ends s (succeed s')
  | noShard : Ends s (.fault .noSuchShard)

theorem Ends.withValid {off len : Nat} {s : State} {body : Result} (h : Ends s body) :
    Ends s (withValid off len s body) := by
  rcases withValid_cases off len s body with ⟨_, e⟩ | ⟨_, _, e⟩ | ⟨_, _, _, e⟩ | ⟨_, e⟩ <;> rw [e]
  · exact .error _
  · exact .noShard
  · exact .error _
  · exact h

/-- Everything `exec` can do: end in an error that leaves the state but for ERR and BUSY, succeed, or stop with the one fault. -/
theorem exec_ends (i : Instr) (s : State) : Ends s (exec i s) := by
  cases i with
  | eli ed imm => exact .success _
  | gfadd ed ea eb => exact .success _
  | gfsub ed ea eb => exact .success _
  | gfmul ed ea eb => exact .success _
  | gfdiv ed ea eb =>
    simp only [exec, execGfdiv]
    split
    · exact .success _
    · exact .error _
  | gfexp ed ea n => exact .success _
  | mzero bd rows cols => simp only [exec, execMzero]; split; exacts [.error _, .success _]
  | mident bd n => simp only [exec, execMident]; split; exacts [.error _, .success _]
  | mget ed ba r c => simp only [exec, execMget]; split; exacts [.error _, .success _]
  | mset bd r c ea => simp only [exec, execMset]; split; exacts [.error _, .success _]
  | mmul bd ba bb => simp only [exec, execMmul]; split; exacts [.error _, .success _]
  | maug bd ba bb =>
    simp only [exec, execMaug]
    split
    · exact .error _
    · split; exacts [.error _, .success _]
  | msub bd ba rmin cmin rmax cmax => simp only [exec, execMsub]; split; exacts [.success _, .error _]
  | mrow bd ba r => simp only [exec, execMrow]; split; exacts [.error _, .success _]
  | mswap bd r1 r2 => simp only [exec, execMswap]; split; exacts [.error _, .success _]
  | minv bd ba =>
    simp only [exec, execMinv]
    split
    · exact .error _
    · split; exacts [.error _, .success _]
  | cinit k m =>
    simp only [exec, execCinit]
    split
    · exact .error _
    · split; exacts [.error _, .success _]
  | cenc off len => exact Ends.withValid (.success _)
  | cvfy off len => exact Ends.withValid (.success _)
  | cdec off len =>
    refine Ends.withValid ?_
    simp only
    split
    · exact .success _
    · split
      · exact .error _
      · split; exacts [.error _, .success _]
  | cgen bd => simp only [exec, execCgen]; split; exacts [.error _, .success _]

end Sys2Proof.Machine
end

