-- ==== Sys2Proof/Laws/PerInstr.lean ====
section
/-! SUPPORT. Facts about every instruction as syntax, one lemma per constructor. -/

namespace Sys2Proof

/-- The row of R93's opcode map that stands for a command. -/
def rowOf : Instr → OpRow
  | .eli _ _ => rowEli
  | .gfadd _ _ _ => rowGfadd
  | .gfsub _ _ _ => rowGfsub
  | .gfmul _ _ _ => rowGfmul
  | .gfdiv _ _ _ => rowGfdiv
  | .gfexp _ _ _ => rowGfexp
  | .mzero _ _ _ => rowMzero
  | .mident _ _ => rowMident
  | .mget _ _ _ _ => rowMget
  | .mset _ _ _ _ => rowMset
  | .mmul _ _ _ => rowMmul
  | .maug _ _ _ => rowMaug
  | .msub _ _ _ _ _ _ => rowMsub
  | .mrow _ _ _ => rowMrow
  | .mswap _ _ _ => rowMswap
  | .minv _ _ => rowMinv
  | .cinit _ _ => rowCinit
  | .cenc _ _ => rowCenc
  | .cvfy _ _ => rowCvfy
  | .cdec _ _ => rowCdec
  | .cgen _ => rowCgen

/-- Two words are equal when each of their 64 bits is. -/
theorem word_ext {a b : Command} (h : ∀ i (hi : i < 64), a[i] = b[i]) : a = b :=
  BitVec.eq_of_getElem_eq h

/-! `EncodeRow`: the encoded word hits the row of its own command: its opcode is the row's and every reserved bit is zero
(30_encoding.md R91, R93). -/

/-- What `EncodeRow` says of an instruction. -/
def Laws.EncodeRow.Statement (i : Instr) : Prop := (rowOf i).hits (encode i) = true

theorem Laws.EncodeRow.eli (ed : EReg) (imm : Byte) : Laws.EncodeRow.Statement (.eli ed imm) := by
  simp only [Laws.EncodeRow.Statement, OpRow.hits, rowOf, rowEli, encode, beq_iff_eq]
  refine word_ext fun i hi => ?_
  simp only [BitVec.getElem_and, BitVec.getElem_append, selBits]
  interval_cases i <;> simp

theorem Laws.EncodeRow.gfadd (ed ea eb : EReg) : Laws.EncodeRow.Statement (.gfadd ed ea eb) := by
  simp only [Laws.EncodeRow.Statement, OpRow.hits, rowOf, rowGfadd, encode, fmtR, beq_iff_eq]
  refine word_ext fun i hi => ?_
  simp only [BitVec.getElem_and, BitVec.getElem_append, selBits]
  interval_cases i <;> simp

theorem Laws.EncodeRow.gfsub (ed ea eb : EReg) : Laws.EncodeRow.Statement (.gfsub ed ea eb) := by
  simp only [Laws.EncodeRow.Statement, OpRow.hits, rowOf, rowGfsub, encode, fmtR, beq_iff_eq]
  refine word_ext fun i hi => ?_
  simp only [BitVec.getElem_and, BitVec.getElem_append, selBits]
  interval_cases i <;> simp

theorem Laws.EncodeRow.gfmul (ed ea eb : EReg) : Laws.EncodeRow.Statement (.gfmul ed ea eb) := by
  simp only [Laws.EncodeRow.Statement, OpRow.hits, rowOf, rowGfmul, encode, fmtR, beq_iff_eq]
  refine word_ext fun i hi => ?_
  simp only [BitVec.getElem_and, BitVec.getElem_append, selBits]
  interval_cases i <;> simp

theorem Laws.EncodeRow.gfdiv (ed ea eb : EReg) : Laws.EncodeRow.Statement (.gfdiv ed ea eb) := by
  simp only [Laws.EncodeRow.Statement, OpRow.hits, rowOf, rowGfdiv, encode, fmtR, beq_iff_eq]
  refine word_ext fun i hi => ?_
  simp only [BitVec.getElem_and, BitVec.getElem_append, selBits]
  interval_cases i <;> simp

theorem Laws.EncodeRow.gfexp (ed ea : EReg) (n : Nat) : Laws.EncodeRow.Statement (.gfexp ed ea n) := by
  simp only [Laws.EncodeRow.Statement, OpRow.hits, rowOf, rowGfexp, encode, beq_iff_eq]
  refine word_ext fun i hi => ?_
  simp only [BitVec.getElem_and, BitVec.getElem_append, selBits]
  interval_cases i <;> simp

theorem Laws.EncodeRow.mzero (bd : Bank) (rows cols : Nat) : Laws.EncodeRow.Statement (.mzero bd rows cols) := by
  simp only [Laws.EncodeRow.Statement, OpRow.hits, rowOf, rowMzero, encode, fmtD2, beq_iff_eq]
  refine word_ext fun i hi => ?_
  simp only [BitVec.getElem_and, BitVec.getElem_append, selBits]
  interval_cases i <;> simp

theorem Laws.EncodeRow.mident (bd : Bank) (n : Nat) : Laws.EncodeRow.Statement (.mident bd n) := by
  simp only [Laws.EncodeRow.Statement, OpRow.hits, rowOf, rowMident, encode, beq_iff_eq]
  refine word_ext fun i hi => ?_
  simp only [BitVec.getElem_and, BitVec.getElem_append, selBits]
  interval_cases i <;> simp

theorem Laws.EncodeRow.mget (ed : EReg) (ba : Bank) (r c : Nat) : Laws.EncodeRow.Statement (.mget ed ba r c) := by
  simp only [Laws.EncodeRow.Statement, OpRow.hits, rowOf, rowMget, encode, fmtDA2, beq_iff_eq]
  refine word_ext fun i hi => ?_
  simp only [BitVec.getElem_and, BitVec.getElem_append, selBits]
  interval_cases i <;> simp

theorem Laws.EncodeRow.mset (bd : Bank) (r c : Nat) (ea : EReg) : Laws.EncodeRow.Statement (.mset bd r c ea) := by
  simp only [Laws.EncodeRow.Statement, OpRow.hits, rowOf, rowMset, encode, fmtDA2, beq_iff_eq]
  refine word_ext fun i hi => ?_
  simp only [BitVec.getElem_and, BitVec.getElem_append, selBits]
  interval_cases i <;> simp

theorem Laws.EncodeRow.mmul (bd ba bb : Bank) : Laws.EncodeRow.Statement (.mmul bd ba bb) := by
  simp only [Laws.EncodeRow.Statement, OpRow.hits, rowOf, rowMmul, encode, fmtR, beq_iff_eq]
  refine word_ext fun i hi => ?_
  simp only [BitVec.getElem_and, BitVec.getElem_append, selBits]
  interval_cases i <;> simp

theorem Laws.EncodeRow.maug (bd ba bb : Bank) : Laws.EncodeRow.Statement (.maug bd ba bb) := by
  simp only [Laws.EncodeRow.Statement, OpRow.hits, rowOf, rowMaug, encode, fmtR, beq_iff_eq]
  refine word_ext fun i hi => ?_
  simp only [BitVec.getElem_and, BitVec.getElem_append, selBits]
  interval_cases i <;> simp

theorem Laws.EncodeRow.msub (bd ba : Bank) (rmin cmin rmax cmax : Nat) : Laws.EncodeRow.Statement (.msub bd ba rmin cmin rmax cmax) := by
  simp only [Laws.EncodeRow.Statement, OpRow.hits, rowOf, rowMsub, encode, beq_iff_eq]
  refine word_ext fun i hi => ?_
  simp only [BitVec.getElem_and, BitVec.getElem_append, selBits]
  interval_cases i <;> simp

theorem Laws.EncodeRow.mrow (bd ba : Bank) (r : Nat) : Laws.EncodeRow.Statement (.mrow bd ba r) := by
  simp only [Laws.EncodeRow.Statement, OpRow.hits, rowOf, rowMrow, encode, beq_iff_eq]
  refine word_ext fun i hi => ?_
  simp only [BitVec.getElem_and, BitVec.getElem_append, selBits]
  interval_cases i <;> simp

theorem Laws.EncodeRow.mswap (bd : Bank) (r1 r2 : Nat) : Laws.EncodeRow.Statement (.mswap bd r1 r2) := by
  simp only [Laws.EncodeRow.Statement, OpRow.hits, rowOf, rowMswap, encode, fmtD2, beq_iff_eq]
  refine word_ext fun i hi => ?_
  simp only [BitVec.getElem_and, BitVec.getElem_append, selBits]
  interval_cases i <;> simp

theorem Laws.EncodeRow.minv (bd ba : Bank) : Laws.EncodeRow.Statement (.minv bd ba) := by
  simp only [Laws.EncodeRow.Statement, OpRow.hits, rowOf, rowMinv, encode, beq_iff_eq]
  refine word_ext fun i hi => ?_
  simp only [BitVec.getElem_and, BitVec.getElem_append, selBits]
  interval_cases i <;> simp

theorem Laws.EncodeRow.cinit (k m : Nat) : Laws.EncodeRow.Statement (.cinit k m) := by
  simp only [Laws.EncodeRow.Statement, OpRow.hits, rowOf, rowCinit, encode, beq_iff_eq]
  refine word_ext fun i hi => ?_
  simp only [BitVec.getElem_and, BitVec.getElem_append]
  interval_cases i <;> simp

theorem Laws.EncodeRow.cenc (off len : Nat) : Laws.EncodeRow.Statement (.cenc off len) := by
  simp only [Laws.EncodeRow.Statement, OpRow.hits, rowOf, rowCenc, encode, fmtOL, beq_iff_eq]
  refine word_ext fun i hi => ?_
  simp only [BitVec.getElem_and, BitVec.getElem_append]
  interval_cases i <;> simp

theorem Laws.EncodeRow.cvfy (off len : Nat) : Laws.EncodeRow.Statement (.cvfy off len) := by
  simp only [Laws.EncodeRow.Statement, OpRow.hits, rowOf, rowCvfy, encode, fmtOL, beq_iff_eq]
  refine word_ext fun i hi => ?_
  simp only [BitVec.getElem_and, BitVec.getElem_append]
  interval_cases i <;> simp

theorem Laws.EncodeRow.cdec (off len : Nat) : Laws.EncodeRow.Statement (.cdec off len) := by
  simp only [Laws.EncodeRow.Statement, OpRow.hits, rowOf, rowCdec, encode, fmtOL, beq_iff_eq]
  refine word_ext fun i hi => ?_
  simp only [BitVec.getElem_and, BitVec.getElem_append]
  interval_cases i <;> simp

theorem Laws.EncodeRow.cgen (bd : Bank) : Laws.EncodeRow.Statement (.cgen bd) := by
  simp only [Laws.EncodeRow.Statement, OpRow.hits, rowOf, rowCgen, encode, beq_iff_eq]
  refine word_ext fun i hi => ?_
  simp only [BitVec.getElem_and, BitVec.getElem_append, selBits]
  interval_cases i <;> simp

end Sys2Proof
end

