-- ==== Sys2Proof/Laws/Step.lean ====
section
/-! SUPPORT. What a step and a run of the machine do, case by case (20_memory.md R70 to R73), so that no proof unfolds them. -/

namespace Sys2Proof.Machine

/-- With nothing left to happen outside, the engine executes a latched command (R71, R76). -/
theorem step_of_no_inputs {s : State} (hi : s.inputs = []) (hb : s.busy = true) : step s = executeStep s := by
  simp [step, hi, hb]

/-- With nothing left to happen outside, an idle core stays as it is. -/
theorem step_of_idle_no_inputs {s : State} (hi : s.inputs = []) (hb : s.busy = false) : step s = .next s := by
  simp [step, hi, hb]

/-- The poll (R73), in any state: the answer is kept, and all else is as before. -/
theorem step_of_poll {s : State} {rest : List Event} (hi : s.inputs = .regRead 0x000#12 :: rest) :
    step s = .next { s with inputs := rest, replies := .reg 0x000#12 s.status :: s.replies } := by
  simp [step, hi, isPoll, hostStep, reply, regRead, State.status]

/-- A run over one step that answers a next state goes on from it. -/
theorem run_succ {s t : State} (h : step s = .next t) (n : Nat) :
    Host.Core.run Sys2Proof.core (n + 1) s = Host.Core.run Sys2Proof.core n t := by
  change core.step s = _ at h
  simp only [Host.Core.run, h]

/-- A run of one step is the step. -/
theorem run_one (s : State) : Host.Core.run Sys2Proof.core 1 s = step s := by
  change _ = core.step s
  simp only [Host.Core.run]
  cases core.step s <;> rfl

@[simp] theorem afterPolls_busy (n : Nat) (s : State) : (afterPolls n s).busy = s.busy := rfl
@[simp] theorem afterPolls_inputs (n : Nat) (s : State) : (afterPolls n s).inputs = [] := rfl
@[simp] theorem afterPolls_cmdreg (n : Nat) (s : State) : (afterPolls n s).cmdreg = s.cmdreg := rfl

theorem afterPolls_zero {s : State} (hi : s.inputs = []) : afterPolls 0 s = s := by
  cases s
  simp_all [afterPolls]

/-- One poll answered, then `n` more, is `n + 1` polls. -/
theorem afterPolls_succ (n : Nat) (s : State) (rest : List Event) :
    afterPolls n { s with inputs := rest, replies := .reg 0x000#12 s.status :: s.replies } = afterPolls (n + 1) s := by
  simp [afterPolls, List.replicate_succ', State.status]

end Sys2Proof.Machine
end

