-- ==== Sys2Proof/Machine/Asm.lean ====
section
/-! DEFINITION. The assembler notation of 30_encoding.md R98: mnemonic, then the operands in R93's order. -/

namespace Sys2Proof.Machine

/-- The mnemonic of a command (R93); there are no pseudo-instructions (R100). -/
def mnemonic : Instr → String
  | .eli _ _ => "ELI"
  | .gfadd _ _ _ => "GFADD"
  | .gfsub _ _ _ => "GFSUB"
  | .gfmul _ _ _ => "GFMUL"
  | .gfdiv _ _ _ => "GFDIV"
  | .gfexp _ _ _ => "GFEXP"
  | .mzero _ _ _ => "MZERO"
  | .mident _ _ => "MIDENT"
  | .mget _ _ _ _ => "MGET"
  | .mset _ _ _ _ => "MSET"
  | .mmul _ _ _ => "MMUL"
  | .maug _ _ _ => "MAUG"
  | .msub _ _ _ _ _ _ => "MSUB"
  | .mrow _ _ _ => "MROW"
  | .mswap _ _ _ => "MSWAP"
  | .minv _ _ => "MINV"
  | .cinit _ _ => "CINIT"
  | .cenc _ _ => "CENC"
  | .cvfy _ _ => "CVFY"
  | .cdec _ _ => "CDEC"
  | .cgen _ => "CGEN"

/-- An element register is written `e0` to `e15` (R98). -/
def asmE (r : EReg) : String := "e" ++ toString r.val

/-- A bank is written `b0` to `b15` (R98). -/
def asmB (b : Bank) : String := "b" ++ toString b.val

/-- The operands as text, in the order of R93's assembler column; numbers are written in decimal (R98). -/
def asmOperands : Instr → List String
  | .eli ed imm => [asmE ed, toString imm.toNat]
  | .gfadd ed ea eb | .gfsub ed ea eb | .gfmul ed ea eb | .gfdiv ed ea eb => [asmE ed, asmE ea, asmE eb]
  | .gfexp ed ea n => [asmE ed, asmE ea, toString n]
  | .mzero bd rows cols => [asmB bd, toString rows, toString cols]
  | .mident bd n => [asmB bd, toString n]
  | .mget ed ba r c => [asmE ed, asmB ba, toString r, toString c]
  | .mset bd r c ea => [asmB bd, toString r, toString c, asmE ea]
  | .mmul bd ba bb | .maug bd ba bb => [asmB bd, asmB ba, asmB bb]
  | .msub bd ba rmin cmin rmax cmax =>
    [asmB bd, asmB ba, toString rmin, toString cmin, toString rmax, toString cmax]
  | .mrow bd ba r => [asmB bd, asmB ba, toString r]
  | .mswap bd r1 r2 => [asmB bd, toString r1, toString r2]
  | .minv bd ba => [asmB bd, asmB ba]
  | .cinit k m => [toString k, toString m]
  | .cenc off len | .cvfy off len | .cdec off len => [toString off, toString len]
  | .cgen bd => [asmB bd]

/-- A command line (R98): `MNEMONIC operand, operand, ...`. -/
def asmText (i : Instr) : String := mnemonic i ++ " " ++ String.intercalate ", " (asmOperands i)

/-- A command line as a host directive: `Issue(w)`, one step left to the engine, one poll (R99); the assembler refuses an operand
that does not fit (R98). -/
def commandLine (i : Instr) : Option Directive := (assemble i).map .word

end Sys2Proof.Machine
end

