-- ==== Sys2Proof/Tests/Slice0.lean ====
section
/-! SUPPORT. The model's own tests. Expected values are the spec's: 95_test_vectors.md (T.., P..) and the examples of the command rules. -/

open Sys2Proof Sys2Proof.Machine

namespace Sys2Proof.Tests

/-- What a field of the next state is, if there is a next state. -/
def after {α : Type} (o : Result) (f : State → α) : Option α :=
  match o with
  | .next s => some (f s)
  | .fault _ => none
  | .refused _ => none

/-- The refusal an outcome is, if it is one. -/
def refusal (o : Result) : Option Refusal :=
  match o with
  | .next _ => none
  | .fault _ => none
  | .refused r => some r

/-- The reset state with element registers set. -/
def withElems (l : List (EReg × Byte)) : State := l.foldl (fun s p => s.setElem p.1 p.2) State.reset

/-- The reset state with banks set from rows of equal length. -/
def withBanks (l : List (Bank × List (List Byte))) : State :=
  l.foldl (fun s p => s.setBank p.1 ⟨p.2.length, (p.2.headD []).length, p.2⟩) State.reset

/-- A reset state with command word `w` latched and the engine to move. -/
def latched (w : Command) : State := { State.reset with cmdreg := w, busy := true, inputs := [.engine] }

/-- Bytes of one shard from position 0. -/
def shardOf (s : BitVec 8) (l : List Byte) : List ShardByte := l.zipIdx.map fun b => ⟨s, BitVec.ofNat 16 b.2, b.1⟩

/-- The generator matrix of CINIT 4, 2 as R201's example prints it. -/
def genFourTwo : Mat := ⟨6, 4, [[1, 0, 0, 0], [0, 1, 0, 0], [0, 0, 1, 0], [0, 0, 0, 1],
  [0x1B, 0x1C, 0x12, 0x14], [0x1C, 0x1B, 0x14, 0x12]]⟩

/-- A codec for k = 4, m = 2 over the given six shards of length 4 (T1), with the given PRESENT bits. -/
def codecState (shards : List (List Byte)) (present : BitVec 256) : State :=
  { State.reset with
    gvalid := true
    k := 4
    m := 2
    g := genFourTwo
    shcount := 6
    shlen := (List.range 6).foldl (fun v i => v.setIfInBounds i 4#16) State.reset.shlen
    present := present
    shard := shardContents ((shards.zipIdx.map fun x => shardOf (BitVec.ofNat 8 x.2) x.1).flatten) }

/-- The data shards of scenario A, before encoding (T1). -/
def scenarioA : State := codecState [[0, 1, 2, 3], [4, 5, 6, 7], [8, 9, 10, 11], [12, 13, 14, 15]] 0

/-- Scenario B: shards 1 and 4 hold junk and are marked absent (T2). -/
def scenarioB : State := codecState [[0, 1, 2, 3], [0xAA, 0xAA, 0xAA, 0xAA], [8, 9, 10, 11], [12, 13, 14, 15],
  [0x55, 0x55, 0x55, 0x55], [20, 21, 22, 23]] 0x2D

/-- The six shards of scenario A after encoding. -/
def encodedA : Memory := (codecState [[0, 1, 2, 3], [4, 5, 6, 7], [8, 9, 10, 11], [12, 13, 14, 15], [16, 17, 18, 19],
  [20, 21, 22, 23]] 0).shard

/-- Four bytes of a shard. -/
def four (sh : Nat) (s : State) : List Byte := (List.range 4).map fun p => memRead s.shard sh p

/-! ### Well-formedness: an ill-formed term for each check, and the limits themselves. -/

theorem test_wf_gfexp_refuses : wellFormed (.gfexp 0 0 4294967296) = false := by decide
theorem test_wf_mzero_refuses : wellFormed (.mzero 0 4096 0) = false ∧ wellFormed (.mzero 0 0 4096) = false := by decide
theorem test_wf_mident_refuses : wellFormed (.mident 0 4096) = false := by decide
theorem test_wf_mget_refuses : wellFormed (.mget 0 0 4096 0) = false ∧ wellFormed (.mget 0 0 0 4096) = false := by decide
theorem test_wf_mset_refuses : wellFormed (.mset 0 4096 0 0) = false ∧ wellFormed (.mset 0 0 4096 0) = false := by decide
theorem test_wf_msub_refuses : wellFormed (.msub 0 0 4096 0 0 0) = false ∧ wellFormed (.msub 0 0 0 4096 0 0) = false ∧
    wellFormed (.msub 0 0 0 0 4096 0) = false ∧ wellFormed (.msub 0 0 0 0 0 4096) = false := by decide
theorem test_wf_mrow_refuses : wellFormed (.mrow 0 0 4096) = false := by decide
theorem test_wf_mswap_refuses : wellFormed (.mswap 0 4096 0) = false ∧ wellFormed (.mswap 0 0 4096) = false := by decide
theorem test_wf_cinit_refuses : wellFormed (.cinit 4096 0) = false ∧ wellFormed (.cinit 0 4096) = false := by decide
theorem test_wf_cenc_refuses : wellFormed (.cenc 65536 0) = false ∧ wellFormed (.cenc 0 65536) = false := by decide
theorem test_wf_cvfy_refuses : wellFormed (.cvfy 65536 0) = false ∧ wellFormed (.cvfy 0 65536) = false := by decide
theorem test_wf_cdec_refuses : wellFormed (.cdec 65536 0) = false ∧ wellFormed (.cdec 0 65536) = false := by decide
theorem test_wf_accepts_limits : wellFormed (.msub 15 15 4095 4095 4095 4095) = true ∧
    wellFormed (.gfexp 15 15 4294967295) = true ∧ wellFormed (.cenc 65535 65535) = true := by decide
theorem test_assemble_refuses_what_does_not_fit : assemble (.cinit 4096 1) = none := by decide

/-! ### Decoding: every command's word as T51 prints it, and the encoder's answer. -/

theorem test_decode_eli : decode 0x1010000000000053#64 = .ok (.eli 1 0x53) := by rfl
theorem test_decode_gfadd : decode 0x1131200000000000#64 = .ok (.gfadd 3 1 2) := by rfl
theorem test_decode_gfsub : decode 0x1231200000000000#64 = .ok (.gfsub 3 1 2) := by rfl
theorem test_decode_gfmul : decode 0x1331200000000000#64 = .ok (.gfmul 3 1 2) := by rfl
theorem test_decode_gfdiv : decode 0x1431200000000000#64 = .ok (.gfdiv 3 1 2) := by rfl
theorem test_decode_gfexp : decode 0x1531000000000008#64 = .ok (.gfexp 3 1 8) := by rfl
theorem test_decode_mzero : decode 0x2000000000002003#64 = .ok (.mzero 0 2 3) := by rfl
theorem test_decode_mident : decode 0x2110000000000003#64 = .ok (.mident 1 3) := by rfl
theorem test_decode_mget : decode 0x2251000000002002#64 = .ok (.mget 5 1 2 2) := by rfl
theorem test_decode_mset : decode 0x2304000000001002#64 = .ok (.mset 0 1 2 4) := by rfl
theorem test_decode_mmul : decode 0x2420100000000000#64 = .ok (.mmul 2 0 1) := by rfl
theorem test_decode_maug : decode 0x2520100000000000#64 = .ok (.maug 2 0 1) := by rfl
theorem test_decode_msub : decode 0x2632000002002004#64 = .ok (.msub 3 2 0 2 2 4) := by rfl
theorem test_decode_mrow : decode 0x2740000000000001#64 = .ok (.mrow 4 0 1) := by rfl
theorem test_decode_mswap : decode 0x2800000000000001#64 = .ok (.mswap 0 0 1) := by rfl
theorem test_decode_minv : decode 0x2910000000000000#64 = .ok (.minv 1 0) := by rfl
theorem test_decode_cinit : decode 0x3000000000004002#64 = .ok (.cinit 4 2) := by rfl
theorem test_decode_cenc : decode 0x3100000000000004#64 = .ok (.cenc 0 4) := by rfl
theorem test_decode_cvfy : decode 0x3200000000000004#64 = .ok (.cvfy 0 4) := by rfl
theorem test_decode_cdec : decode 0x3300000000000004#64 = .ok (.cdec 0 4) := by rfl
theorem test_decode_cgen : decode 0x3470000000000000#64 = .ok (.cgen 7) := by rfl
/-- R93 written out bit by bit: MSUB with every field different. -/
theorem test_decode_msub_bits : decode
    (0b00100110#8 ++ 0b1001#4 ++ 0b0011#4 ++ 0b000000000001#12 ++ 0b100000000000#12 ++ 0b000000000111#12 ++ 0b111111111111#12) =
    .ok (.msub 9 3 1 2048 7 4095) := by rfl
/-- T50: words that are no command, and why. -/
theorem test_decode_illegal : decode 0x0000000000000000#64 = .error (.opcode 0x00) ∧
    decode 0x3500000000000000#64 = .error (.opcode 0x35) ∧ decode 0x1010000000000153#64 = .error (.reservedBits 0x10) ∧
    decode 0x2001000000002003#64 = .error (.reservedBits 0x20) ∧ decode 0x3100000100000004#64 = .error (.reservedBits 0x31) :=
  ⟨rfl, rfl, rfl, rfl, rfl⟩
theorem test_encode_words : encode (.mset 0 1 2 4) = 0x2304000000001002#64 ∧ encode (.msub 3 2 0 2 2 4) = 0x2632000002002004#64 ∧
    encode (.cinit 4 2) = 0x3000000000004002#64 ∧ encode (.gfexp 3 1 8) = 0x1531000000000008#64 := ⟨rfl, rfl, rfl, rfl⟩
theorem test_decode_table_word : decodeTableWord 64 0x2251000000002002 = some (.mget 5 1 2 2) := by rfl
/-- R66: byte 0 of a serialised word is `w[7:0]`. -/
theorem test_decode_bytes : decodeBytes [0x53, 0, 0, 0, 0, 0, 0x10, 0x10, 0x77] = some (.ok (.eli 1 0x53, [0x77])) := by rfl
/-- R66: a 32-bit register value likewise, byte 0 is `v[7:0]` (the CODEC value of P2's codec). -/
theorem test_register_bytes : bytesOfReg 0x00020004 = [0x04, 0x00, 0x02, 0x00] ∧
    readRegBytes [0x04, 0x00, 0x02, 0x00, 0x77] = some (0x00020004, [0x77]) ∧ readRegBytes [1, 2, 3] = none := by decide
/-- R98's own examples. -/
theorem test_assembler_text : asmText (.msub 1 0 0 0 4 4) = "MSUB b1, b0, 0, 0, 4, 4" ∧
    asmText (.mset 0 1 2 4) = "MSET b0, 1, 2, e4" := by decide +kernel

/-! ### Field unit. -/

/-- R121, R122: the procedure gives the tables of R124 and R125 (spot values of T11 beside it). -/
theorem test_rom_spot_values : LOG 0x53 = 206 ∧ LOG 0x8E = 254 ∧ LOG 0xFF = 175 ∧ ALOG 24 = 0x8F ∧ ALOG 263 = 0x1D ∧
    ALOG 509 = 0x8E := by decide
theorem test_rom_walk_starts : ((generateLogTable 29).map fun t => (generateExpTable t).take 12) =
    some [0x01, 0x02, 0x04, 0x08, 0x10, 0x20, 0x40, 0x80, 0x1D, 0x3A, 0x74, 0xE8] := by decide +kernel
/-- T12: 27 is no valid constant. -/
theorem test_rom_invalid_polynomial : generateLogTable 27 = none := by decide +kernel
theorem test_eli : after (exec (.eli 1 0x53) State.reset) (·.elem 1) = some 0x53 := by decide
theorem test_gfadd : after (exec (.gfadd 3 1 2) (withElems [(1, 0x53), (2, 0xCA)])) (·.elem 3) = some 0x99 := by decide
theorem test_gfsub : after (exec (.gfsub 3 1 2) (withElems [(1, 0xAA), (2, 0x55)])) (·.elem 3) = some 0xFF := by decide
theorem test_gfmul : after (exec (.gfmul 3 1 2) (withElems [(1, 0x53), (2, 0xCA)])) (·.elem 3) = some 0x8F := by decide
/-- T17: source and destination are one register. -/
theorem test_gfmul_same_register : after (exec (.gfmul 1 1 1) (withElems [(1, 0x53)])) (·.elem 1) = some 0xD5 := by decide
theorem test_gfdiv : after (exec (.gfdiv 3 1 2) (withElems [(1, 0x12), (2, 0x34)])) (·.elem 3) = some 0xC7 := by decide
/-- T15: 0 / 0 is DivisionByZero and the destination keeps its value. -/
theorem test_gfdiv_zero_by_zero : after (exec (.gfdiv 3 1 2) (withElems [(3, 0x77)])) (fun s => (s.elem 3, s.err)) =
    some (0x77, some .divisionByZero) := by decide
/-- T16: the product does not wrap at 32 bits. -/
theorem test_gfexp_large : after (exec (.gfexp 3 1 2147483648) (withElems [(1, 0xFF)])) (·.elem 3) = some 0xEF := by decide
theorem test_gfexp_zero_to_zero : after (exec (.gfexp 12 0 0) State.reset) (·.elem 12) = some 0x01 := by decide

/-! ### Matrix unit. -/

theorem test_mzero : after (exec (.mzero 0 2 3) State.reset) (·.bank 0) = some ⟨2, 3, [[0, 0, 0], [0, 0, 0]]⟩ := by decide
/-- T23. -/
theorem test_mzero_capacity : after (exec (.mzero 2 257 1) State.reset) (fun s => (s.bank 2, s.err)) =
    some (Mat.empty, some .capacity) := by decide
theorem test_mident : after (exec (.mident 1 3) State.reset) (·.bank 1) =
    some ⟨3, 3, [[1, 0, 0], [0, 1, 0], [0, 0, 1]]⟩ := by decide
theorem test_mident_capacity : after (exec (.mident 3 257) State.reset) (·.err) = some (some .capacity) := by decide
theorem test_mget : after (exec (.mget 5 1 1 0) (withBanks [(1, [[2, 1], [0x8F, 0x8E]])])) (·.elem 5) = some 0x8F := by decide
theorem test_mget_empty_bank : after (exec (.mget 2 0 0 0) State.reset) (·.err) = some (some .indexOutOfRange) := by decide
theorem test_mset : after (exec (.mset 0 1 2 4) ((withBanks [(0, [[0, 0, 0], [0, 0, 0]])]).setElem 4 7)) (·.bank 0) =
    some ⟨2, 3, [[0, 0, 0], [0, 0, 7]]⟩ := by decide
theorem test_mset_bound : after (exec (.mset 0 2 0 4) (withBanks [(0, [[1], [2]])])) (fun s => (s.bank 0, s.err)) =
    some (⟨2, 1, [[1], [2]]⟩, some .indexOutOfRange) := by decide
/-- T22. -/
theorem test_mmul : after (exec (.mmul 2 0 1) (withBanks [(0, [[1, 2, 3], [4, 5, 6]]), (1, [[7, 8], [9, 10], [11, 12]])]))
    (·.bank 2) = some ⟨2, 2, [[0x08, 0x08], [0x0B, 0x2A]]⟩ := by decide
/-- T22: B x A into B itself. -/
theorem test_mmul_onto_source : after (exec (.mmul 1 1 0) (withBanks [(0, [[1, 2, 3], [4, 5, 6]]), (1, [[7, 8], [9, 10], [11, 12]])]))
    (·.bank 1) = some ⟨3, 3, [[0x27, 0x26, 0x39], [0x21, 0x30, 0x27], [0x3B, 0x2A, 0x35]]⟩ := by decide
theorem test_maug : after (exec (.maug 2 0 1) (withBanks [(0, [[1, 2], [3, 4]]), (1, [[1, 0], [0, 1]])])) (·.bank 2) =
    some ⟨2, 4, [[1, 2, 1, 0], [3, 4, 0, 1]]⟩ := by decide
/-- T23: the shapes are checked before the capacity. -/
theorem test_maug_order : after (exec (.maug 5 4 6) ((State.reset.setBank 4 (Mat.zero 1 300)).setBank 6 (Mat.zero 2 300))) (·.err) =
    some (some .dimensionMismatch) := by decide
theorem test_msub : after (exec (.msub 3 2 0 2 2 4) (withBanks [(2, [[1, 2, 1, 0], [3, 4, 0, 1]])])) (·.bank 3) =
    some ⟨2, 2, [[1, 0], [0, 1]]⟩ := by decide
/-- T23: an empty range at the end is allowed. -/
theorem test_msub_empty : after (exec (.msub 7 1 2 2 2 2) (withBanks [(1, [[1, 0], [0, 1]])])) (fun s => (s.bank 7, s.err)) =
    some (Mat.empty, none) := by decide
theorem test_mrow : after (exec (.mrow 4 0 1) (withBanks [(0, [[1, 2], [3, 4]])])) (·.bank 4) = some ⟨1, 2, [[3, 4]]⟩ := by decide
theorem test_mrow_bound : after (exec (.mrow 8 1 2) (withBanks [(1, [[1, 0], [0, 1]])])) (·.err) = some (some .indexOutOfRange) := by
  decide
theorem test_mswap : after (exec (.mswap 0 0 1) (withBanks [(0, [[1, 2], [3, 4]])])) (·.bank 0) =
    some ⟨2, 2, [[3, 4], [1, 2]]⟩ := by decide
theorem test_mswap_bound : after (exec (.mswap 1 0 2) (withBanks [(1, [[1, 0], [0, 1]])])) (·.err) =
    some (some .indexOutOfRange) := by decide
/-- T20: an inversion that needs the row swap. -/
theorem test_minv : after (exec (.minv 1 0) (withBanks [(0, [[0x00, 0x02], [0x03, 0x04]])])) (·.bank 1) =
    some ⟨2, 2, [[0xF5, 0xF4], [0x8E, 0x00]]⟩ := by decide +kernel
theorem test_minv_singular : after (exec (.minv 1 0) (withBanks [(0, [[1, 2], [2, 4]])])) (fun s => (s.bank 1, s.err)) =
    some (Mat.empty, some .singular) := by decide +kernel

/-! ### Codec unit. -/

/-- R201's example. -/
theorem test_cinit : after (exec (.cinit 4 2) State.reset) (fun s => (s.gvalid, s.codec, s.g)) =
    some (true, 0x00020004, genFourTwo) := by decide +kernel
/-- T33. -/
theorem test_cinit_bound : after (exec (.cinit 200 57) State.reset) (fun s => (s.gvalid, s.err)) =
    some (false, some .invalidArgument) := by decide
/-- T1. -/
theorem test_cenc : after (exec (.cenc 0 4) scenarioA) (fun s => (four 3 s, four 4 s, four 5 s)) =
    some ([12, 13, 14, 15], [16, 17, 18, 19], [20, 21, 22, 23]) := by decide +kernel
/-- T31's kind: only the range is written. -/
theorem test_cenc_range : after (exec (.cenc 1 2) scenarioA) (four 4) = some [0, 17, 18, 0] := by decide +kernel
theorem test_cvfy : after (exec (.cvfy 0 4) { scenarioA with shard := encodedA }) (fun s => (s.vfy, s.err)) =
    some (true, none) := by decide +kernel
/-- P3: after `ShardWrite(2, 3, 0x0A)` the same command gives 0, and it is a success. -/
theorem test_cvfy_tampered : after (exec (.cvfy 0 4) (shardWrite 2 3 0x0A { scenarioA with shard := encodedA, vfy := true }))
    (fun s => (s.vfy, s.err)) = some (false, none) := by decide +kernel
/-- T2. -/
theorem test_cdec : after (exec (.cdec 0 4) scenarioB) (fun s => (four 1 s, four 4 s, s.present)) =
    some ([4, 5, 6, 7], [16, 17, 18, 19], 0x2D) := by decide +kernel
/-- T3: three absent shards. -/
theorem test_cdec_insufficient : after (exec (.cdec 0 4) { scenarioB with present := 0x2C }) (fun s => (four 0 s, s.err)) =
    some ([0, 1, 2, 3], some .insufficientShards) := by decide +kernel
theorem test_cgen : after (exec (.cgen 7) scenarioA) (·.bank 7) = some genFourTwo := by decide +kernel
/-- T34. -/
theorem test_cgen_no_codec : after (exec (.cgen 2) State.reset) (fun s => (s.err, s.status)) = some (some .noCodec, 0x90) := by decide

/-! ### Steps and ports. -/

/-- P4: an illegal word ends with code 8 and changes nothing else. -/
theorem test_step_illegal : after (step (latched 0x1010000000000153#64)) (fun s => (s.status, s.elem 1, s.busy)) =
    some (0x80, 0, false) := by decide
theorem test_step_after_fetch_word : after (step (State.reset.withFetchWord 64 0x1010000000000053)) (·.elem 1) = some 0x53 := by decide
/-- R300. -/
theorem test_issue_while_busy : refusal (step { latched 0 with inputs := [.issue 0] }) = some .hostWhileBusy := by decide
/-- R73: the poll while busy. -/
theorem test_poll_while_busy : after (step { latched 0 with inputs := [.regRead 0] }) (fun s => (s.replies, s.busy)) =
    some ([.reg 0 1], true) := by decide
/-- P1: `RegRead(0x013)` after `e3 = 8F`. -/
theorem test_regread_element : regRead (withElems [(3, 0x8F)]) 0x013 = 0x0000008F := by decide
/-- P3: PRESENT0 after `.present` of shards 0, 2, 3, 5. -/
theorem test_present_word : regRead scenarioB 0x020 = 0x0000002D := by decide +kernel
theorem test_regwrite_shlen : (regWrite 0x105 0xFFFF0004 State.reset).shlenAt 5 = 4 := by decide +kernel
theorem test_reset_event_while_busy : after (step { latched 0 with inputs := [.reset [⟨2, 3, 9⟩]] })
    (fun s => (s.busy, shardRead s 2 3, s.shard)) = some (false, 9, [(131075, 9)]) := by decide +kernel
/-- R99: `.present 33, 1` reads and rewrites register `0x021`. -/
theorem test_directive_present : (Directive.present 33 true).events State.reset = [.regRead 0x021, .regWrite 0x021 2] := by decide +kernel

/-! ### Witnesses: states and operands that meet the hypotheses of the obligations, one theorem for each group of clauses. -/

/-- Banks 0 to 2: a singular and an invertible square matrix and a 2 x 3 one. Banks 3 to 5: zero matrices of 1 x 300, 2 x 300 and
1 x 212. -/
def shapes : State := (withBanks [(0, [[1, 2], [2, 4]]), (1, [[0, 2], [3, 4]]), (2, [[1, 2, 3], [4, 5, 6]])]).setBank 3 (Mat.zero 1 300)
  |>.setBank 4 (Mat.zero 2 300) |>.setBank 5 (Mat.zero 1 212)

/-- Scenario A's state with `K + M = 257`, one more shard than there are buffers: no run reaches it. -/
def tooMany : State := { scenarioA with m := 253 }

/-- A codec state whose generator store is all zero, so that no selection of rows is invertible: no run reaches it. -/
def zeroGenerator : State := { scenarioB with g := Mat.zero 6 4 }

theorem witness_wellformed : WellFormed (.msub 15 0 0 4095 4095 0) ∧ WellFormed (.gfexp 0 15 4294967295) ∧
    WellFormed (.cenc 65535 0) := by decide
/-- R95's four ranges at their ends. -/
theorem witness_unassigned_opcodes : (fOp 0x0FFFFFFFFFFFFFFF#64).toNat ≤ 0x0F ∧
    (0x16 ≤ (fOp 0x1600000000000000#64).toNat ∧ (fOp 0x1F00000000000000#64).toNat ≤ 0x1F) ∧
    (0x2A ≤ (fOp 0x2A00000000000000#64).toNat ∧ (fOp 0x2F00000000000000#64).toNat ≤ 0x2F) ∧
    0x35 ≤ (fOp 0x3500000000000000#64).toNat ∧ 0x35 ≤ (fOp 0xFFFFFFFFFFFFFFFF#64).toNat := by decide
/-- The engine's turn, with the step left to it and with nothing left to do for the host. -/
theorem witness_engine_turn : engineTurn (latched 0x3500000000000000#64) { latched 0x3500000000000000#64 with inputs := [] } ∧
    engineTurn { latched 0x1010000000000053#64 with inputs := [] } { latched 0x1010000000000053#64 with inputs := [] } :=
  ⟨⟨rfl, .inr ⟨[], rfl, rfl⟩⟩, rfl, .inl ⟨rfl, rfl⟩⟩
/-- R94: the lowest and the highest reserved bit of format I. -/
theorem witness_reserved_bits : rowEli ∈ opTable ∧ fOp 0x1010000000000153#64 = fOp rowEli.mat ∧
    0x1010000000000153#64 &&& rowEli.mask &&& 0x00FFFFFFFFFFFFFF#64 ≠ 0 ∧
    fOp 0x1018000000000053#64 = fOp rowEli.mat ∧ 0x1018000000000053#64 &&& rowEli.mask &&& 0x00FFFFFFFFFFFFFF#64 ≠ 0 :=
  ⟨.head _, rfl, by decide, rfl, by decide⟩
theorem witness_fetch_word : decode (tableWord 64 0x1331200000000000) = .ok (.gfmul 3 1 2) := by rfl
theorem witness_transactions : isTransaction (.regRead 0) = true ∧ isTransaction (.issue 0) = true ∧
    isTransaction (.regRead 1) = true ∧ isTransaction (.regWrite 0 0) = true ∧ isTransaction (.shardRead 0 0) = true ∧
    isTransaction (.shardWrite 255 65535 1) = true := by decide
theorem witness_busy_and_idle : (latched 0).busy = true ∧ State.reset.busy = false ∧
    ({ State.reset with inputs := [.issue 0, .engine] } : State).inputs = .issue 0 :: [.engine] := by decide
/-- R42's three ranges at their ends. -/
theorem witness_unmapped_numbers : ∀ n : Nat, n ∈ [0x004, 0x00F, 0x028, 0x0FF, 0x200, 0xFFF] →
    (4 ≤ (BitVec.ofNat 12 n).toNat ∧ (BitVec.ofNat 12 n).toNat ≤ 0x00F) ∨
      (0x028 ≤ (BitVec.ofNat 12 n).toNat ∧ (BitVec.ofNat 12 n).toNat ≤ 0x0FF) ∨ 0x200 ≤ (BitVec.ofNat 12 n).toNat := by decide
theorem witness_register_bounds : (0 < 256 ∧ 255 < 256) ∧ (7 < 8 ∧ 31 < 32 ∧ 255 < 256 ∧ 223 / 32 ≠ 7) := by decide
theorem witness_memory_wf : Memory.wf encodedA = true ∧ Memory.wf [(16777215, 1)] = true ∧ encodedA.length = 23 := by decide +kernel
theorem witness_reset_event : ({ latched 0 with inputs := [.reset [⟨255, 65535, 7⟩]] } : State).inputs =
    .reset [⟨255, 65535, 7⟩] :: [] := by rfl
/-- A launch state that is not `State.reset`. -/
theorem witness_launch : IsLaunch { State.reset with shard := [(16777215, 1)], cmdreg := 5, inputs := [.engine] } :=
  ⟨by decide, rfl⟩

theorem inv_of (s : State) (hb : s.banks.toList.all bankOk = true) (hc : codecOk s = true) (hm : Memory.wf s.shard = true) :
    Inv s where
  banks b := by
    rw [List.all_eq_true] at hb
    exact hb _ (by simp [State.bank])
  codec := hc
  shard := hm

/-- A state with a codec, a filled bank, nonempty shard memory and a latched command. -/
def working : State := { (scenarioB.setBank 3 genFourTwo) with cmdreg := 0x3300000000000004#64, busy := true }

theorem witness_inv : Inv working ∧ Inv State.reset :=
  ⟨inv_of _ (by decide +kernel) (by decide +kernel) (by decide +kernel), inv_of _ (by decide +kernel) (by decide) (by decide)⟩
theorem witness_inv_next : after (step working) (·.busy) = some false := by decide +kernel
theorem witness_obedient_host : hostObeys working.busy
    [.regRead 0, .engine, .regRead 0x013, .shardWrite 1 2 3, .issue 0, .regRead 0, .reset [], .regWrite 3 6] = true := by decide
theorem witness_polls_then_execution : working.busy = true ∧
    ({ working with inputs := [.regRead 0, .regRead 0] } : State).inputs = List.replicate 2 (.regRead 0x000#12) := by decide
theorem witness_error_completion : after (exec (.gfdiv 3 1 2) State.reset) (·.err) = some (some .divisionByZero) ∧
    after (exec (.cdec 0 4) { scenarioB with present := 0x2C }) (·.err) = some (some .insufficientShards) := by decide +kernel

/-! Field unit. -/

theorem witness_field_operands : (withElems [(1, 0x53), (2, 0xCA)]).elem 1 ≠ 0 ∧ (withElems [(1, 0x53), (2, 0xCA)]).elem 2 ≠ 0 ∧
    State.reset.elem 2 = 0 ∧ (withElems [(1, 0x8E)]).elem 1 ≠ 0 ∧ (withElems [(2, 1)]).elem 1 = 0 ∧ (withElems [(2, 1)]).elem 2 ≠ 0 := by
  decide

/-! Matrix unit: each clause at the ends of its range. -/

theorem witness_capacity : (256 ≤ 256 ∧ 512 ≤ 512) ∧ 256 < 257 ∧ 512 < 513 := by decide
theorem witness_cell_bounds : (1 < (shapes.bank 2).rows ∧ 2 < (shapes.bank 2).cols ∧ (shapes.bank 2).wf = true) ∧
    (shapes.bank 2).rows ≤ 2 ∧ (shapes.bank 2).cols ≤ 3 := by decide
theorem witness_product_shapes : (shapes.bank 1).cols = (shapes.bank 2).rows ∧ (shapes.bank 2).cols ≠ (shapes.bank 1).rows := by
  decide
theorem witness_augment_shapes : (shapes.bank 3).rows ≠ (shapes.bank 4).rows ∧
    ((shapes.bank 3).rows = (shapes.bank 3).rows ∧ 512 < (shapes.bank 3).cols + (shapes.bank 3).cols) ∧
    (shapes.bank 3).rows = (shapes.bank 5).rows ∧ (shapes.bank 3).cols + (shapes.bank 5).cols = 512 := by decide
theorem witness_block_bounds : (2 ≤ 2 ∧ 2 ≤ (shapes.bank 2).rows ∧ 0 ≤ 3 ∧ 3 ≤ (shapes.bank 2).cols) ∧
    (1 < 2 ∧ (shapes.bank 2).rows < 3 ∧ (shapes.bank 2).cols < 4) := by decide
theorem witness_inverse : squareOf (shapes.bank 1) 2 ∧ matInv (shapes.bank 1) = some ⟨2, 2, [[0xF5, 0xF4], [0x8E, 0x00]]⟩ ∧
    squareOf (shapes.bank 0) 2 ∧ matInv (shapes.bank 0) = none ∧ (shapes.bank 2).rows ≠ (shapes.bank 2).cols ∧
    squareOf Mat.empty 0 ∧ matInv Mat.empty = some Mat.empty := by
  unfold squareOf
  decide +kernel

/-! Codec unit. -/

theorem witness_codec_bounds : (1 ≤ 1 ∧ 1 ≤ 255 ∧ 1 + 255 ≤ 256) ∧ (1 ≤ 255 ∧ 1 ≤ 1 ∧ 255 + 1 ≤ 256) ∧ 256 < 200 + 57 := by decide
/-- T^-1 of R201's example. -/
theorem witness_top_block : matInv (Mat.build 4 4 fun r c => gfExp (BitVec.ofNat 8 r) c) =
    some ⟨4, 4, [[0x01, 0, 0, 0], [0x7B, 0x01, 0x8E, 0xF4], [0, 0x7A, 0xF4, 0x8E], [0x7A, 0x7A, 0x7A, 0x7A]]⟩ := by decide +kernel
theorem witness_generator : generator 4 2 = some genFourTwo ∧ generator 1 255 = some (Mat.build 256 1 fun _ _ => 1) := by
  decide +kernel
theorem witness_row_choice : [5, 0, 4, 2].length = 4 ∧ [5, 0, 4, 2].Nodup ∧ ∀ r, r ∈ [5, 0, 4, 2] → r < 4 + 2 := by decide
theorem witness_identity_block : ∀ r c : Fin 4, genFourTwo.get r c = if r.val = c.val then 1 else 0 := by decide

/-- A state with a codec whose store is the generator matrix, in which CDEC has shards to reconstruct, and a step of it. -/
theorem witness_store_is_generator : Inv working ∧ storeIsGenerator working ∧ working.gvalid = true ∧
    after (step working) (fun s => (s.gvalid, s.err)) = some (true, none) :=
  ⟨witness_inv.1, fun _ => by decide +kernel, by decide, by decide +kernel⟩

theorem topIsIdentity_genFourTwo : topIsIdentity genFourTwo 4 := by
  intro r c hr hc
  simpa using witness_identity_block ⟨r, hr⟩ ⟨c, hc⟩

theorem validShardSet_of (off len : Nat) (s : State) (h : shardSetOk off len s = true) (hg : s.gvalid = true)
    (hn : s.N ≤ Config.NSH) : validShardSet off len s := by
  simp only [shardSetOk, Bool.and_eq_true, beq_iff_eq, List.all_eq_true, List.mem_range, decide_eq_true_eq] at h
  exact ⟨hg, hn, h.1.1, h.1.2, h.2⟩

/-- The range of a whole shard, an empty range at its end, and an inner one. -/
theorem witness_valid_shard_set : validShardSet 0 4 scenarioA ∧ validShardSet 4 0 scenarioB ∧ validShardSet 1 2 scenarioB :=
  ⟨validShardSet_of _ _ _ (by decide +kernel) (by decide) (by decide), validShardSet_of _ _ _ (by decide +kernel) (by decide) (by decide),
    validShardSet_of _ _ _ (by decide +kernel) (by decide) (by decide)⟩
/-- No codec; the three bad descriptors; a codec no run reaches. -/
theorem witness_invalid_shard_sets : State.reset.gvalid = false ∧
    (scenarioA.gvalid = true ∧ scenarioA.N ≤ 256 ∧ ({ scenarioA with shcount := 7 } : State).shcount.toNat ≠ scenarioA.N) ∧
    (5 < scenarioA.N ∧ (regWrite 0x105 3 scenarioA).shlenAt 5 ≠ (regWrite 0x105 3 scenarioA).shlenAt 0) ∧
    scenarioA.shlenAt 0 < 0 + 5 ∧ (tooMany.gvalid = true ∧ 256 < tooMany.N) := by decide +kernel
/-- CDEC's cases over valid shard sets: all present, too few, and enough with some absent. -/
theorem witness_decode_cases : validShardSet 0 4 { scenarioB with present := 0x3F } ∧
    (∀ x : Fin 6, ({ scenarioB with present := 0x3F } : State).presentAt x = true) ∧
    validShardSet 0 4 { scenarioB with present := 0x2C } ∧
    (List.range 6).countP (fun x => ({ scenarioB with present := 0x2C } : State).presentAt x) < scenarioB.K ∧
    validShardSet 0 4 scenarioB ∧ scenarioB.presentAt 1 = false ∧ scenarioB.presentAt (scenarioB.K + 0) = false ∧
    scenarioB.K ≤ (List.range 6).countP (fun x => scenarioB.presentAt x) :=
  ⟨validShardSet_of _ _ _ (by decide +kernel) (by decide) (by decide), by decide +kernel,
    validShardSet_of _ _ _ (by decide +kernel) (by decide) (by decide), by decide +kernel,
    validShardSet_of _ _ _ (by decide +kernel) (by decide) (by decide), by decide +kernel, by decide +kernel, by decide +kernel⟩
/-- The decode matrix of R208's example, and a state in which there is none. -/
theorem witness_decode_matrix :
    matInv (Mat.build 4 4 fun j c => scenarioB.g.get ([0, 2, 3, 5].getD j 0) c) =
      some ⟨4, 4, [[1, 0, 0, 0], [0xA6, 0xD2, 0xF5, 0x80], [0, 1, 0, 0], [0, 0, 1, 0]]⟩ ∧
    matInv (Mat.build 4 4 fun j c => zeroGenerator.g.get ([0, 2, 3, 5].getD j 0) c) = none := by decide +kernel
theorem witness_generator_readable : scenarioA.gvalid = true := by decide
theorem witness_encode_succeeds : after (exec (.cenc 0 4) scenarioA) (·.err) = some none ∧ Memory.wf scenarioA.shard = true := by
  decide +kernel
/-- Scenario B of the round trip: the present shards hold what `encodedA` holds, whose parity is right, and CDEC succeeds. -/
theorem witness_reconstruction : Memory.wf scenarioB.shard = true ∧
    (∀ (i : Fin 2) (p : Fin 4), memRead encodedA (4 + i) p = parOf scenarioB encodedA i p) ∧
    (∀ (x : Fin 6) (p : Fin 4), scenarioB.presentAt x = true → memRead scenarioB.shard x p = memRead encodedA x p) ∧
    after (exec (.cdec 0 4) scenarioB) (·.err) = some none ∧ scenarioB.N = 6 ∧ scenarioB.K = 4 ∧ scenarioB.M = 2 := by decide +kernel

end Sys2Proof.Tests
end

/-! What the register port reads and ignores (10_state.md R36, R37, R41, R42), register by register, and the obligations on it. -/

namespace Sys2Proof.Machine

/-! ### The register map (R41) -/

@[simp] theorem regRead_codec (s : State) : regRead s 0x001#12 = s.codec := rfl

@[simp] theorem regRead_poly (s : State) : regRead s 0x002#12 = polyWord := rfl

/-- Outside the register map the port reads 0 (R42). -/
theorem regRead_of_unmapped (s : State) {n : BitVec 12}
    (h : (4 ≤ n.toNat ∧ n.toNat ≤ 0x00F) ∨ (0x028 ≤ n.toNat ∧ n.toNat ≤ 0x0FF) ∨ 0x200 ≤ n.toNat) :
    regRead s n = 0 := by
  have hfixed : n.toNat ≠ 0x000 ∧ n.toNat ≠ 0x001 ∧ n.toNat ≠ 0x002 ∧ n.toNat ≠ 0x003 := by omega
  have helem : ¬(0x010 ≤ n.toNat ∧ n.toNat ≤ 0x01F) := by omega
  have hpresent : ¬(0x020 ≤ n.toNat ∧ n.toNat ≤ 0x027) := by omega
  have hshlen : ¬(0x100 ≤ n.toNat ∧ n.toNat ≤ 0x1FF) := by omega
  simp only [regRead, hfixed, helem, hpresent, hshlen, if_false]
  rfl

/-- The host can write SHCOUNT, PRESENT and SHLEN only: a write to any other register number is ignored (R72). -/
theorem regWrite_of_not_writable (s : State) (v : RegWord) {n : BitVec 12} (hshcount : n.toNat ≠ 0x003)
    (hpresent : ¬(0x020 ≤ n.toNat ∧ n.toNat ≤ 0x027)) (hshlen : ¬(0x100 ≤ n.toNat ∧ n.toNat ≤ 0x1FF)) :
    regWrite n v s = s := by
  simp only [regWrite, hshcount, hpresent, hshlen, if_false]

/-! ### The fields of CODEC and POLY (R36, R37) -/

theorem State.codec_k_field (s : State) : s.codec.extractLsb' 0 9 = s.k :=
  BitVec.extractLsb'_append_eq_right

theorem State.codec_bits_15_9 (s : State) : s.codec.extractLsb' 9 7 = 0 := by
  rw [State.codec, BitVec.extractLsb'_append_eq_of_le (by decide)]
  exact BitVec.extractLsb'_append_eq_right

theorem State.codec_m_field (s : State) : s.codec.extractLsb' 16 9 = s.m := by
  rw [State.codec, BitVec.extractLsb'_append_eq_of_le (by decide), BitVec.extractLsb'_append_eq_of_le (by decide)]
  exact BitVec.extractLsb'_append_eq_right

theorem State.codec_bits_31_25 (s : State) : s.codec.extractLsb' 25 7 = 0 := by
  rw [State.codec, BitVec.extractLsb'_append_eq_of_le (by decide), BitVec.extractLsb'_append_eq_of_le (by decide)]
  exact BitVec.extractLsb'_append_eq_left

theorem polyWord_poly_field : polyWord.extractLsb' 0 8 = 29 :=
  BitVec.extractLsb'_append_eq_right

theorem polyWord_bits_31_8 : polyWord.extractLsb' 8 24 = 0 :=
  BitVec.extractLsb'_append_eq_left

/-! ### The obligations -/

/-- Settles O12, field by field of the words CODEC and POLY, neither of which is a writable register. -/
theorem codecAndPolyRegisterLayout : Obligations.CodecAndPolyRegisterLayout := by
  intro s
  refine ⟨?codec, ?poly, fun v => ⟨?writeCodec, ?writePoly⟩⟩
  case codec =>
    rw [regRead_codec]
    exact ⟨s.codec_k_field, s.codec_bits_15_9, s.codec_m_field, s.codec_bits_31_25⟩
  case poly =>
    rw [regRead_poly]
    exact ⟨polyWord_poly_field, polyWord_bits_31_8⟩
  case writeCodec => exact regWrite_of_not_writable s v (by decide) (by decide) (by decide)
  case writePoly => exact regWrite_of_not_writable s v (by decide) (by decide) (by decide)

/-- Settles O14: a number outside the register map falls through every case of the read, and is no writable register. -/
theorem unmappedRegistersReadZero : Obligations.UnmappedRegistersReadZero := by
  intro s n v h
  exact ⟨regRead_of_unmapped s h, regWrite_of_not_writable s v (by omega) (by omega) (by omega)⟩

end Sys2Proof.Machine

/-! The host's transactions on the three ports (20_memory.md R70, R73), and the obligations on them. -/

namespace Sys2Proof.Machine

/-! ### What a step does with a host transaction -/

/-- The poll is the read of register `0x000` and nothing else (R73). -/
theorem isPoll_iff (v : Event) : isPoll v = true ↔ v = .regRead 0x000#12 := by
  cases v with
  | regRead n => simp [isPoll]
  | _ => simp [isPoll]

/-- A transaction is refused exactly when the core is busy and it is not the poll; otherwise it takes effect at once. -/
theorem step_of_transaction {s : State} {v : Event} {rest : List Event} (hi : s.inputs = v :: rest)
    (hv : isTransaction v = true) :
    step s = if s.busy && !isPoll v then .refused .hostWhileBusy else .next (hostStep v { s with inputs := rest }) := by
  cases v with
  | engine => simp [isTransaction] at hv
  | reset contents => simp [isTransaction] at hv
  | _ => simp only [step, hi]

/-- An idle core takes every transaction (R70, R72). -/
theorem step_of_idle_transaction {s : State} {v : Event} {rest : List Event} (hb : s.busy = false)
    (hi : s.inputs = v :: rest) (hv : isTransaction v = true) :
    step s = .next (hostStep v { s with inputs := rest }) := by
  simp [step_of_transaction hi hv, hb]

/-- A busy core refuses every transaction but the poll (R73, R300). -/
theorem step_of_busy_transaction {s : State} {v : Event} {rest : List Event} (hb : s.busy = true)
    (hi : s.inputs = v :: rest) (hv : isTransaction v = true) (hpoll : v ≠ .regRead 0x000#12) :
    step s = .refused .hostWhileBusy := by
  have hnot : isPoll v = false := Bool.eq_false_iff.mpr (mt (isPoll_iff v).mp hpoll)
  simp [step_of_transaction hi hv, hb, hnot]

/-- BUSY is bit 0 of STATUS (R35). -/
theorem State.status_busy_bit (s : State) : s.status.getLsbD 0 = s.busy := by
  rw [State.status, BitVec.getLsbD_append]
  simp

/-! ### The obligations -/

/-- Settles O8: `Issue` is a transaction and not the poll, so an idle core takes it and a busy one refuses it. -/
theorem issueLatchesTheCommand : Obligations.IssueLatchesTheCommand := by
  intro s w rest hi
  refine ⟨fun hidle => ?idle, fun hbusy => ?busy⟩
  case idle => exact step_of_idle_transaction hidle hi rfl
  case busy => exact step_of_busy_transaction hbusy hi rfl (by simp)

/-- Settles O9: the poll is answered in every state, with BUSY as bit 0 of the answer, and a busy core refuses the rest. -/
theorem busyCoreAnswersOnlyStatusPolls : Obligations.BusyCoreAnswersOnlyStatusPolls := by
  intro s v rest hbusy hi hv
  refine ⟨?poll, step_of_busy_transaction hbusy hi hv⟩
  case poll =>
    rintro rfl
    exact ⟨step_of_poll hi, s.status_busy_bit.trans hbusy⟩

end Sys2Proof.Machine

/-! Words that are no command (30_encoding.md R94, R95, R101): which rows of the opcode map can hit a word, what the refusal is
called, what the engine's turn does with such a word, and the obligations on it. -/

namespace Sys2Proof

/-! ### The rows of the opcode map (R93) -/

/-- The opcodes lie in R93's three ranges. -/
theorem opcode_range : ∀ row ∈ opTable,
    (0x10 ≤ (fOp row.mat).toNat ∧ (fOp row.mat).toNat ≤ 0x15) ∨ (0x20 ≤ (fOp row.mat).toNat ∧ (fOp row.mat).toNat ≤ 0x29) ∨
      (0x30 ≤ (fOp row.mat).toNat ∧ (fOp row.mat).toNat ≤ 0x34) := by
  decide

/-- Every mask covers the whole opcode. -/
theorem fOp_mask : ∀ row ∈ opTable, fOp row.mask = BitVec.allOnes 8 := by
  decide

/-- A row asks for zeros below the opcode. -/
theorem mat_below_opcode : ∀ row ∈ opTable, row.mat &&& 0x00FFFFFFFFFFFFFF#64 = 0 := by
  decide

theorem opcodes_nodup : (opTable.map fun row => fOp row.mat).Nodup := by
  decide

/-- An opcode has one row. -/
theorem row_eq_of_opcode_eq {row row' : OpRow} (h : row ∈ opTable) (h' : row' ∈ opTable)
    (hop : fOp row.mat = fOp row'.mat) : row = row' :=
  List.inj_on_of_nodup_map opcodes_nodup h h' hop

theorem OpRow.hits_iff (row : OpRow) (w : Command) : row.hits w = true ↔ w &&& row.mask = row.mat :=
  beq_iff_eq

theorem fOp_and (v w : Command) : fOp (v &&& w) = fOp v &&& fOp w :=
  BitVec.extractLsb'_and

/-- A row hits words with its own opcode only. -/
theorem fOp_eq_of_hits {row : OpRow} {w : Command} (h : row ∈ opTable) (hhit : row.hits w = true) :
    fOp w = fOp row.mat := by
  rw [← (row.hits_iff w).mp hhit, fOp_and, fOp_mask row h, BitVec.and_allOnes]

/-- A row hits words with zeros in its reserved bits only (R94). -/
theorem reserved_eq_zero_of_hits {row : OpRow} {w : Command} (h : row ∈ opTable) (hhit : row.hits w = true) :
    w &&& row.mask &&& 0x00FFFFFFFFFFFFFF#64 = 0 := by
  rw [(row.hits_iff w).mp hhit, mat_below_opcode row h]

/-! ### The refusals (R94, R95) -/

theorem assigned_iff (op : BitVec 8) : assigned op = true ↔ ∃ row ∈ opTable, fOp row.mat = op := by
  simp [assigned]

/-- The opcodes of R95 are those of no row. -/
theorem not_assigned_of_range {op : BitVec 8}
    (h : op.toNat ≤ 0x0F ∨ (0x16 ≤ op.toNat ∧ op.toNat ≤ 0x1F) ∨ (0x2A ≤ op.toNat ∧ op.toNat ≤ 0x2F) ∨ 0x35 ≤ op.toNat) :
    ¬assigned op = true := by
  rw [assigned_iff]
  rintro ⟨row, hrow, rfl⟩
  have hrange := opcode_range row hrow
  omega

/-- A word that no row hits is refused (R101). -/
theorem decode_of_no_hit {w : Command} (h : ∀ row ∈ opTable, ¬row.hits w = true) : decode w = .error (illegalName w) := by
  have hnone : opTable.find? (·.hits w) = none := List.find?_eq_none.mpr h
  simp only [decode, hnone]

/-- No row hits a word whose opcode is unassigned, and the refusal says so (R95). -/
theorem decode_of_not_assigned {w : Command} (h : ¬assigned (fOp w) = true) : decode w = .error (.opcode (fOp w)) := by
  have hmiss : ∀ row ∈ opTable, ¬row.hits w = true := fun row hrow hhit =>
    h ((assigned_iff _).mpr ⟨row, hrow, (fOp_eq_of_hits hrow hhit).symm⟩)
  rw [decode_of_no_hit hmiss, illegalName, if_neg h]

/-- Only the row of its opcode could hit the word, and the reserved bit keeps that one off (R94). -/
theorem decode_of_reserved_ne_zero {row : OpRow} {w : Command} (h : row ∈ opTable) (hop : fOp w = fOp row.mat)
    (hres : w &&& row.mask &&& 0x00FFFFFFFFFFFFFF#64 ≠ 0) : decode w = .error (.reservedBits (fOp w)) := by
  have hmiss : ∀ row' ∈ opTable, ¬row'.hits w = true := by
    intro row' h' hhit
    obtain rfl : row = row' := row_eq_of_opcode_eq h h' (hop.symm.trans (fOp_eq_of_hits h' hhit))
    exact hres (reserved_eq_zero_of_hits h hhit)
  have hassigned : assigned (fOp w) = true := (assigned_iff _).mpr ⟨row, h, hop.symm⟩
  rw [decode_of_no_hit hmiss, illegalName, if_pos hassigned]

end Sys2Proof

namespace Sys2Proof.Machine

/-! ### The engine's turn -/

/-- At the engine's turn the step is the execute step, with the event taken (R71, R76). -/
theorem step_of_engineTurn {s s' : State} (h : engineTurn s s') : step s = executeStep s' := by
  obtain ⟨hbusy, ⟨hi, rfl⟩ | ⟨rest, hi, rfl⟩⟩ := h
  · exact step_of_no_inputs hi hbusy
  · simp only [step, hi, hbusy, if_true]

/-- Taking the event leaves the latched command. -/
theorem engineTurn_cmdreg {s s' : State} (h : engineTurn s s') : s'.cmdreg = s.cmdreg := by
  obtain ⟨-, ⟨-, rfl⟩ | ⟨_, -, rfl⟩⟩ := h <;> rfl

theorem executeStep_of_illegal {s : State} {e : Illegal} (h : decode s.cmdreg = .error e) :
    executeStep s = raise .illegalCommand s := by
  simp only [executeStep, h]

/-- The engine's turn with an illegal word sets ERR and clears BUSY, and changes nothing else (R94, R95). -/
theorem step_of_illegal {s s' : State} {e : Illegal} (ht : engineTurn s s') (h : decode s.cmdreg = .error e) :
    step s = .next { s' with err := some .illegalCommand, busy := false } := by
  rw [step_of_engineTurn ht, executeStep_of_illegal (e := e) (by rw [engineTurn_cmdreg ht, h]), raise_eq]
  rfl

/-! ### The obligations -/

/-- Settles O5: the opcodes of the four ranges are those of no row, so no row hits the word. -/
theorem unassignedOpcodesAreIllegalCommands : Obligations.UnassignedOpcodesAreIllegalCommands := by
  refine ⟨fun w hrange => ?illegal, rfl, by decide, by decide⟩
  case illegal =>
    have hdec := decode_of_not_assigned (not_assigned_of_range hrange)
    exact ⟨hdec, fun s s' hcmd hturn => step_of_illegal hturn (hcmd ▸ hdec)⟩

/-- Settles O6: the one row with the word's opcode wants zeros in its reserved bits, so no row hits the word. -/
theorem reservedBitsAreIllegalCommands : Obligations.ReservedBitsAreIllegalCommands := by
  refine ⟨fun row hrow w hop hres => ?illegal, rfl⟩
  case illegal =>
    have hdec := decode_of_reserved_ne_zero hrow hop hres
    exact ⟨hdec, fun s s' hcmd hturn => step_of_illegal hturn (hcmd ▸ hdec)⟩

end Sys2Proof.Machine

/-! The field unit (40_field.md): what the two ROMs hold, the corner cases of the field functions, the words of the commands and how
a command that writes one element register ends, and the obligations on them. -/

namespace Sys2Proof

/-! ### The words of the commands (30_encoding.md R91) -/

theorem selBits_eq_ofNat (x : Fin 16) : selBits x = BitVec.ofNat 4 x.val :=
  BitVec.eq_of_toNat_eq (by simp [selBits])

/-- The fields of format `R`, from the most significant bit. -/
theorem fmtR_fields (op : BitVec 8) (d a b : Fin 16) : fmtR op d a b =
    op ++ BitVec.ofNat 4 d.val ++ BitVec.ofNat 4 a.val ++ BitVec.ofNat 4 b.val ++ 0#44 := by
  simp only [fmtR, selBits_eq_ofNat]

end Sys2Proof

namespace Sys2Proof.Machine

/-! ### The ROMs (R120 to R126) -/

/-- The antilog ROM undoes the log ROM on the nonzero elements (R126 (a)). -/
theorem ALOG_LOG : ∀ x : Byte, x ≠ 0 → ALOG (LOG x) = x := by
  decide

theorem LOG_lt : ∀ x : Byte, x ≠ 0 → LOG x < 255 := by
  decide

theorem LOG_one : LOG 1 = 0 := by
  decide

theorem ALOG_zero : ALOG 0 = 1 := by
  decide

/-- The 255 nonzero elements have 255 different exponents, so every exponent below 255 is taken. -/
theorem exists_LOG_eq {i : Nat} (hi : i < 255) : ∃ x : Byte, x ≠ 0 ∧ LOG x = i := by
  have hsurj : Set.SurjOn LOG (Finset.univ.erase (0 : Byte)) (Finset.range 255) := by
    refine Finset.surjOn_of_injOn_of_card_le LOG (fun x hx => ?maps) (fun x hx y hy hxy => ?injective) ?card
    case maps => simpa using LOG_lt x (by simpa using hx)
    case injective => rw [← ALOG_LOG x (by simpa using hx), hxy, ALOG_LOG y (by simpa using hy)]
    case card => simp [← FinEnum.card_eq_fintypeCard]
  simpa using hsurj (by simpa using hi)

/-- The log ROM undoes the first half of the antilog ROM (R126 (b)). -/
theorem LOG_ALOG {i : Nat} (hi : i < 255) : LOG (ALOG i) = i := by
  obtain ⟨x, hx, rfl⟩ := exists_LOG_eq hi
  rw [ALOG_LOG x hx]

/-- The second half of the antilog ROM repeats the first (R126 (c)). -/
theorem ALOG_add_255 {i : Nat} (hi : i < 255) : ALOG (i + 255) = ALOG i := by
  have hhigh : ¬i + 255 < 255 := by omega
  simp only [ALOG, hhigh, hi, if_true, if_false, Nat.add_sub_cancel]

/-- No entry of the antilog ROM is 0 (R126 (f)). -/
theorem ALOG_ne_zero {i : Nat} (hi : i < 510) : ALOG i ≠ 0 := by
  have hlow : ∀ j, j < 255 → ALOG j ≠ 0 := by
    intro j hj
    obtain ⟨x, hx, rfl⟩ := exists_LOG_eq hj
    rwa [ALOG_LOG x hx]
  rcases Nat.lt_or_ge i 255 with h | h
  · exact hlow i h
  · obtain ⟨j, rfl⟩ := Nat.exists_eq_add_of_le' h
    rw [ALOG_add_255 (by omega)]
    exact hlow j (by omega)

/-! ### The corner cases of the field functions (R129 to R131) -/

theorem gfMul_of_zero {a b : Byte} (h : a = 0 ∨ b = 0) : gfMul a b = 0 :=
  if_pos h

theorem gfMul_of_ne_zero {a b : Byte} (ha : a ≠ 0) (hb : b ≠ 0) : gfMul a b = ALOG (LOG a + LOG b) :=
  if_neg (not_or.mpr ⟨ha, hb⟩)

/-- The index of a product lies inside the antilog ROM (R129). -/
theorem LOG_add_LOG_le {a b : Byte} (ha : a ≠ 0) (hb : b ≠ 0) : LOG a + LOG b ≤ 508 := by
  have := LOG_lt a ha
  have := LOG_lt b hb
  omega

theorem gfMul_one_left (a : Byte) : gfMul 1 a = a := by
  by_cases ha : a = 0
  · rw [ha, gfMul_of_zero (.inr rfl)]
  · rw [gfMul_of_ne_zero (by decide) ha, LOG_one, Nat.zero_add, ALOG_LOG a ha]

theorem gfMul_one_right (a : Byte) : gfMul a 1 = a := by
  by_cases ha : a = 0
  · rw [ha, gfMul_of_zero (.inl rfl)]
  · rw [gfMul_of_ne_zero ha (by decide), LOG_one, Nat.add_zero, ALOG_LOG a ha]

theorem gfDiv_zero_right (a : Byte) : gfDiv a 0 = .error .divisionByZero :=
  if_pos rfl

theorem gfDiv_of_ne_zero (a : Byte) {b : Byte} (hb : b ≠ 0) : gfDiv a b = .ok (gfQuot a b) :=
  if_neg hb

theorem gfQuot_zero_left (b : Byte) : gfQuot 0 b = 0 :=
  if_pos rfl

theorem gfQuot_of_ne_zero {a : Byte} (ha : a ≠ 0) (b : Byte) : gfQuot a b = ALOG ((LOG a + 255 - LOG b) % 255) :=
  if_neg ha

theorem gfQuot_self {a : Byte} (ha : a ≠ 0) : gfQuot a a = 1 := by
  rw [gfQuot_of_ne_zero ha, Nat.add_sub_cancel_left, Nat.mod_self, ALOG_zero]

theorem gfQuot_one_right (a : Byte) : gfQuot a 1 = a := by
  by_cases ha : a = 0
  · rw [ha, gfQuot_zero_left]
  · rw [gfQuot_of_ne_zero ha, LOG_one, Nat.sub_zero, Nat.add_mod_right, Nat.mod_eq_of_lt (LOG_lt a ha), ALOG_LOG a ha]

theorem gfExp_zero_right (a : Byte) : gfExp a 0 = 1 :=
  if_pos rfl

theorem gfExp_zero_left {n : Nat} (hn : n ≠ 0) : gfExp 0 n = 0 := by
  rw [gfExp, if_neg hn, if_pos rfl]

theorem gfExp_of_ne_zero {a : Byte} {n : Nat} (hn : n ≠ 0) (ha : a ≠ 0) : gfExp a n = ALOG (LOG a * n % 255) := by
  rw [gfExp, if_neg hn, if_neg ha]

theorem gfExp_one_left (n : Nat) : gfExp 1 n = 1 := by
  by_cases hn : n = 0
  · rw [hn, gfExp_zero_right]
  · rw [gfExp_of_ne_zero hn (by decide), LOG_one, Nat.zero_mul, Nat.zero_mod, ALOG_zero]

/-- The order of the multiplicative group is 255 (R131). -/
theorem gfExp_255 {a : Byte} (ha : a ≠ 0) : gfExp a 255 = 1 := by
  rw [gfExp_of_ne_zero (by decide) ha, Nat.mul_mod_left, ALOG_zero]

theorem gfExp_256 (a : Byte) : gfExp a 256 = a := by
  by_cases ha : a = 0
  · rw [ha, gfExp_zero_left (by decide)]
  · have hindex : LOG a * 256 % 255 = LOG a := by
      have := LOG_lt a ha
      omega
    rw [gfExp_of_ne_zero (by decide) ha, hindex, ALOG_LOG a ha]

/-! ### How a command that writes one element register ends (R15, R21, R71) -/

/-- A write of `e[d]` and the success that follows change nothing but `e[d]`, ERR and BUSY. -/
theorem onlyElemWritten_setElem_finish (d : EReg) (v : Byte) (s : State) :
    onlyElemWritten d s ((s.setElem d v).finish none) := by
  refine ⟨fun r hr => ?other, rfl, fun _ _ => rfl⟩
  case other => rw [State.elem_finish, State.elem_setElem, if_neg hr.symm]

/-- A command that succeeds with a write of `e[d]` answers a next state with the value there and the whole frame kept. -/
theorem next_of_succeed_setElem {i : Instr} {d : EReg} {v : Byte} {s : State} (h : exec i s = succeed (s.setElem d v)) :
    ∃ t, exec i s = .next t ∧ t.elem d = v ∧ onlyElemWritten d s t := by
  refine ⟨(s.setElem d v).finish none, h.trans (succeed_eq _), ?value, onlyElemWritten_setElem_finish d v s⟩
  case value => rw [State.elem_finish, State.elem_setElem, if_pos rfl]

/-- GFDIV with a nonzero divisor writes the quotient (R144). -/
theorem exec_gfdiv_of_ne_zero (d a : EReg) {b : EReg} {s : State} (hb : s.elem b ≠ 0) :
    exec (.gfdiv d a b) s = succeed (s.setElem d (gfQuot (s.elem a) (s.elem b))) := by
  simp only [exec, execGfdiv, gfDiv_of_ne_zero _ hb]

/-- GFDIV with a zero divisor raises, whatever the dividend (R144). -/
theorem exec_gfdiv_of_zero (d a : EReg) {b : EReg} {s : State} (hb : s.elem b = 0) :
    exec (.gfdiv d a b) s = raise .divisionByZero s := by
  simp only [exec, execGfdiv, hb, gfDiv_zero_right]

/-! ### The obligations -/

/-- Settles O30: (a) is the check of the 255 entries; (b) and (f) follow from it, as every exponent is that of an element. -/
theorem romProperties : Obligations.RomProperties :=
  ⟨ALOG_LOG, fun _ => LOG_ALOG, fun _ => ALOG_add_255, ⟨ALOG_zero, LOG_one⟩, by decide, fun _ => ALOG_ne_zero⟩

/-- Settles O36: ELI is the write of its immediate and nothing more. -/
theorem eliLoadsTheImmediate : Obligations.EliLoadsTheImmediate := by
  intro d v s
  refine ⟨?word, next_of_succeed_setElem rfl, rfl⟩
  case word => rw [encode, selBits_eq_ofNat]

/-- Settles O37: both are `gf_add`, and the sources are read in the state before the write. -/
theorem gfaddAndGfsubXorTheirOperands : Obligations.GfaddAndGfsubXorTheirOperands := by
  intro d a b s
  refine ⟨⟨?wordAdd, next_of_succeed_setElem rfl⟩, ⟨?wordSub, next_of_succeed_setElem rfl⟩, by decide, by decide⟩
  case wordAdd => exact fmtR_fields _ d a b
  case wordSub => exact fmtR_fields _ d a b

/-- Settles O38, by the cases of `gf_mul`. -/
theorem gfmulMultipliesThroughTheRoms : Obligations.GfmulMultipliesThroughTheRoms := by
  intro d a b s
  obtain ⟨t, hexec, hvalue, hframe⟩ := next_of_succeed_setElem (i := .gfmul d a b) (s := s) rfl
  refine ⟨fmtR_fields _ d a b, ⟨t, hexec, hframe, fun h => ?zero, fun ha hb => ⟨?product, LOG_add_LOG_le ha hb⟩,
    fun ha => ?oneLeft, fun hb => ?oneRight⟩, by decide⟩
  case zero => rw [hvalue, gfMul_of_zero h]
  case product => rw [hvalue, gfMul_of_ne_zero ha hb]
  case oneLeft => rw [hvalue, ha, gfMul_one_left]
  case oneRight => rw [hvalue, hb, gfMul_one_right]

/-- Settles O39: the divisor decides between `raise` and the cases of the quotient. -/
theorem gfdivDividesThroughTheRoms : Obligations.GfdivDividesThroughTheRoms := by
  intro d a b s
  refine ⟨fmtR_fields _ d a b, exec_gfdiv_of_zero d a, rfl, fun hb => ?quotient, ?inverseOfTwo⟩
  case quotient =>
    obtain ⟨t, hexec, hvalue, hframe⟩ := next_of_succeed_setElem (exec_gfdiv_of_ne_zero d a hb)
    refine ⟨t, hexec, hframe, fun ha => ?zero, fun ha => ?general, fun hab => ?self, fun hone => ?one⟩
    case zero => rw [hvalue, ha, gfQuot_zero_left]
    case general => rw [hvalue, gfQuot_of_ne_zero ha]
    case self => rw [hvalue, hab, gfQuot_self hb]
    case one => rw [hvalue, hone, gfQuot_one_right]
  case inverseOfTwo => rw [gfDiv_of_ne_zero _ (by decide), show gfQuot 0x01 0x02 = 0x8E by decide]

/-- Settles O40, by the cases of `gf_exp`. -/
theorem gfexpRaisesToAnImmediatePower : Obligations.GfexpRaisesToAnImmediatePower := by
  intro d a n s
  obtain ⟨t, hexec, hvalue, hframe⟩ := next_of_succeed_setElem (i := .gfexp d a n) (s := s) rfl
  refine ⟨?word, ⟨t, hexec, hframe, fun hn => ?exponentZero, fun hn ha => ?baseZero, fun hn ha => ?general,
    fun ha => ?baseOne, fun hn ha => ?order, fun hn => ?orderSucc⟩, by decide⟩
  case word => rw [encode, selBits_eq_ofNat, selBits_eq_ofNat]
  case exponentZero => rw [hvalue, hn, gfExp_zero_right]
  case baseZero => rw [hvalue, ha, gfExp_zero_left hn]
  case general => rw [hvalue, gfExp_of_ne_zero hn ha]
  case baseOne => rw [hvalue, ha, gfExp_one_left]
  case order => rw [hvalue, hn, gfExp_255 ha]
  case orderSucc => rw [hvalue, hn, gfExp_256]

end Sys2Proof.Machine

/-! The matrix unit (41_matrix.md), part 1: creation, access to one cell and the product (R170 to R174). The words of formats `D2` and
`DA2`, how a command that replaces one bank ends, each command case by case, and the obligations on them. -/

namespace Sys2Proof

/-! ### The words of the commands (30_encoding.md R91) -/

/-- The fields of format `D2`, from the most significant bit. -/
theorem fmtD2_fields (op : BitVec 8) (d : Fin 16) (n1 n0 : Nat) : fmtD2 op d n1 n0 =
    op ++ BitVec.ofNat 4 d.val ++ 0#28 ++ BitVec.ofNat 12 n1 ++ BitVec.ofNat 12 n0 := by
  simp only [fmtD2, selBits_eq_ofNat]

/-- The fields of format `DA2`, from the most significant bit. -/
theorem fmtDA2_fields (op : BitVec 8) (d a : Fin 16) (n1 n0 : Nat) : fmtDA2 op d a n1 n0 =
    op ++ BitVec.ofNat 4 d.val ++ BitVec.ofNat 4 a.val ++ 0#24 ++ BitVec.ofNat 12 n1 ++ BitVec.ofNat 12 n0 := by
  simp only [fmtDA2, selBits_eq_ofNat]

end Sys2Proof

namespace Sys2Proof.Machine

/-! ### Matrices by their cells (R14, R160) -/

/-- A built matrix has the cells it is built from; `zero`, `identity` and `mat_mul` are built matrices. -/
theorem isMatrix_build (R C : Nat) (F : Nat → Nat → Byte) : isMatrix (Mat.build R C F) R C F :=
  ⟨Mat.wf_build R C F, rfl, rfl, fun _ _ => Mat.get_build F⟩

/-- A write of one cell keeps the dimensions and every other cell (R173). -/
theorem isMatrix_setCell {A : Mat} (h : A.wf = true) {r c : Nat} (hr : r < A.rows) (hc : c < A.cols) (v : Byte) :
    isMatrix (A.setCell r c v) A.rows A.cols fun r' c' => if r' = r ∧ c' = c then v else A.get r' c' := by
  refine ⟨Mat.wf_setCell h hr c v, rfl, rfl, fun r' c' _ _ => ?cell⟩
  case cell => simp only [Mat.get_setCell h hr hc, eq_comm (a := r), eq_comm (a := c)]

/-! ### How a command that replaces one bank ends (R15, R71) -/

/-- The replacement of bank `d` and the success that follows change nothing but bank `d`, ERR and BUSY. -/
theorem onlyBankWritten_setBank_finish (d : Bank) (A : Mat) (s : State) :
    onlyBankWritten d s ((s.setBank d A).finish none) := by
  refine ⟨fun b hb => ?other, rfl, fun _ _ => rfl⟩
  case other => rw [State.bank_finish, State.bank_setBank, if_neg hb.symm]

/-- A command that succeeds with a new bank `d` answers a next state with the matrix there and the whole frame kept. -/
theorem next_of_succeed_setBank {i : Instr} {d : Bank} {A : Mat} {s : State} (h : exec i s = succeed (s.setBank d A)) :
    ∃ t, exec i s = .next t ∧ t.bank d = A ∧ onlyBankWritten d s t := by
  refine ⟨(s.setBank d A).finish none, h.trans (succeed_eq _), ?value, onlyBankWritten_setBank_finish d A s⟩
  case value => rw [State.bank_finish, State.bank_setBank, if_pos rfl]

/-- The same, with the new bank given by its cells. -/
theorem next_of_succeed_setMatrix {i : Instr} {d : Bank} {A : Mat} {s : State} {R C : Nat} {F : Nat → Nat → Byte}
    (h : exec i s = succeed (s.setBank d A)) (hA : isMatrix A R C F) :
    ∃ t, exec i s = .next t ∧ isMatrix (t.bank d) R C F ∧ onlyBankWritten d s t := by
  obtain ⟨t, hexec, hbank, hframe⟩ := next_of_succeed_setBank h
  exact ⟨t, hexec, hbank ▸ hA, hframe⟩

/-! ### The commands case by case: which operands they accept -/

/-- MZERO within the capacity of a bank (R170). -/
theorem exec_mzero_of_le {rows cols : Nat} (hr : rows ≤ 256) (hc : cols ≤ 512) (d : Bank) (s : State) :
    exec (.mzero d rows cols) s = succeed (s.setBank d (Mat.zero rows cols)) :=
  if_neg (not_or.2 ⟨hr.not_gt, hc.not_gt⟩)

/-- MZERO beyond it (R170). -/
theorem mzero_endsInError {rows cols : Nat} (h : 256 < rows ∨ 512 < cols) (d : Bank) (s : State) :
    endsInError (.mzero d rows cols) .capacity s :=
  if_pos h

/-- MIDENT within the capacity of a bank (R171). -/
theorem exec_mident_of_le {n : Nat} (h : n ≤ 256) (d : Bank) (s : State) :
    exec (.mident d n) s = succeed (s.setBank d (Mat.ident n)) :=
  if_neg h.not_gt

/-- MIDENT beyond it (R171). -/
theorem mident_endsInError {n : Nat} (h : 256 < n) (d : Bank) (s : State) : endsInError (.mident d n) .capacity s :=
  if_pos h

/-- MGET inside the matrix (R172). -/
theorem exec_mget_of_lt {a : Bank} {r c : Nat} {s : State} (hr : r < (s.bank a).rows) (hc : c < (s.bank a).cols) (d : EReg) :
    exec (.mget d a r c) s = succeed (s.setElem d ((s.bank a).get r c)) :=
  if_neg (not_or.2 ⟨hr.not_ge, hc.not_ge⟩)

/-- MGET outside it (R172). -/
theorem mget_endsInError {a : Bank} {r c : Nat} {s : State} (h : (s.bank a).rows ≤ r ∨ (s.bank a).cols ≤ c) (d : EReg) :
    endsInError (.mget d a r c) .indexOutOfRange s :=
  if_pos h

/-- MSET inside the matrix (R173). -/
theorem exec_mset_of_lt {d : Bank} {r c : Nat} {s : State} (hr : r < (s.bank d).rows) (hc : c < (s.bank d).cols) (a : EReg) :
    exec (.mset d r c a) s = succeed (s.setBank d ((s.bank d).setCell r c (s.elem a))) :=
  if_neg (not_or.2 ⟨hr.not_ge, hc.not_ge⟩)

/-- MSET outside it (R173). -/
theorem mset_endsInError {d : Bank} {r c : Nat} {s : State} (h : (s.bank d).rows ≤ r ∨ (s.bank d).cols ≤ c) (a : EReg) :
    endsInError (.mset d r c a) .indexOutOfRange s :=
  if_pos h

/-- MMUL of banks that fit: both are read in the state before the write (R174). -/
theorem exec_mmul_of_eq {a b : Bank} {s : State} (h : (s.bank a).cols = (s.bank b).rows) (d : Bank) :
    exec (.mmul d a b) s = succeed (s.setBank d ((s.bank a).mul (s.bank b))) :=
  if_neg (not_not.2 h)

/-- MMUL of banks that do not (R174). -/
theorem mmul_endsInError {a b : Bank} {s : State} (h : (s.bank a).cols ≠ (s.bank b).rows) (d : Bank) :
    endsInError (.mmul d a b) .dimensionMismatch s :=
  if_pos h

/-! ### The obligations -/

/-- Settles O41: both install a built matrix, and the capacity check decides. -/
theorem mzeroAndMidentCreateMatrices : Obligations.MzeroAndMidentCreateMatrices := by
  refine ⟨fun d rows cols s => ⟨fmtD2_fields _ d rows cols, fun hr hc => ?zero, fun h => mzero_endsInError h d s⟩,
    fun d n s => ⟨?word, fun h => ?ident, fun h => mident_endsInError h d s⟩, rfl⟩
  case zero => exact next_of_succeed_setMatrix (exec_mzero_of_le hr hc d s) (isMatrix_build _ _ _)
  case word => rw [encode, selBits_eq_ofNat]
  case ident => exact next_of_succeed_setMatrix (exec_mident_of_le h d s) (isMatrix_build _ _ _)

/-- Settles O42: the bounds check decides; MGET is a write of one element register, MSET the replacement of a bank by the same
matrix with one cell written. -/
theorem mgetAndMsetAccessOneCell : Obligations.MgetAndMsetAccessOneCell := by
  refine ⟨fun d a r c s => ⟨fmtDA2_fields _ d a r c, fun hr hc => ?get, fun h => mget_endsInError h d⟩,
    fun d r c a s hwf => ⟨fmtDA2_fields _ d a r c, fun hr hc => ?set, fun h => mset_endsInError h a⟩, rfl⟩
  case get => exact next_of_succeed_setElem (exec_mget_of_lt hr hc d)
  case set => exact next_of_succeed_setMatrix (exec_mset_of_lt hr hc a) (isMatrix_setCell hwf hr hc (s.elem a))

/-- Settles O43: the product is a built matrix whose cells are formulas over the banks of the state before the command, so it does
not matter whether `d` is `a` or `b`. -/
theorem mmulIsTheMatrixProduct : Obligations.MmulIsTheMatrixProduct := by
  refine ⟨fun d a b s => ⟨fmtR_fields _ d a b, fun h => ?product, fun h => mmul_endsInError h d⟩, rfl⟩
  case product => exact next_of_succeed_setMatrix (exec_mmul_of_eq h d) (isMatrix_build _ _ _)

end Sys2Proof.Machine

/-! Error completion (60_exceptions.md R252, R256): what a failed command leaves, and that issuing it again fails again. -/

namespace Sys2Proof.Machine

/-- An outcome with ERR set is an error completion of the state before the command (R252): a success leaves ERR = 0. -/
theorem Ends.eq_finish_of_err {s t : State} {r : Result} {x : Error} (hends : Ends s r) (hr : r = .next t)
    (herr : t.err = some x) : t = s.finish (some x) := by
  cases hends with
  | error y =>
    have ht : t = s.finish (some y) := raise_spec hr
    have hy : some y = some x := by rw [← herr, ht, State.finish_err]
    rw [ht, hy]
  | success s' =>
    have hnone : t.err = none := by rw [succeed_spec hr, State.finish_err]
    exact absurd (hnone.symm.trans herr) (by simp)
  | noShard => cases hr

/-- No command reads ERR or BUSY, and each writes both: what `finish` left there does not matter to the next command. Every arm holds
by computation, as its conditions and its new values read other fields only. -/
theorem exec_finish (i : Instr) (s : State) (y : Option Error) : exec i (s.finish y) = exec i s := by
  cases i <;> rfl

/-- Settles O26: the failed command ends in an error completion, and the state that leaves is to the same command as the state before. -/
theorem errorsChangeOnlyErrAndBusy : Obligations.ErrorsChangeOnlyErrAndBusy := by
  intro i s t x hexec herr
  have ht : t = s.finish (some x) := (exec_ends i s).eq_finish_of_err hexec herr
  have hagain : exec i t = exec i s := by rw [ht, exec_finish]
  exact ⟨ht, hagain.trans hexec⟩

end Sys2Proof.Machine

/-! The encoder and the decoder are inverse to each other (30_encoding.md R90 to R96, R101): a word is decoded by the one row that
hits it, the fields of an encoded word are the operands, and a word a row hits is laid out as the encoder lays it out. -/

namespace Sys2Proof

/-! ### Decoding by the row that hits (R101) -/

/-- Two rows that hit one word are one row: both have the word's opcode. -/
theorem row_eq_of_hits {row row' : OpRow} {w : Command} (h : row ∈ opTable) (h' : row' ∈ opTable)
    (hhit : row.hits w = true) (hhit' : row'.hits w = true) : row = row' :=
  row_eq_of_opcode_eq h h' ((fOp_eq_of_hits h hhit).symm.trans (fOp_eq_of_hits h' hhit'))

/-- A row that hits decides what the word decodes to, wherever in the map it stands. -/
theorem decode_of_hits {row : OpRow} {w : Command} (h : row ∈ opTable) (hhit : row.hits w = true) :
    decode w = .ok (row.build w) := by
  obtain ⟨found, hfound⟩ := Option.isSome_iff_exists.mp (List.find?_isSome (p := fun row : OpRow => row.hits w) |>.mpr ⟨row, h, hhit⟩)
  have hfoundHits : found.hits w = true := List.find?_some (p := fun row : OpRow => row.hits w) hfound
  obtain rfl : found = row := row_eq_of_hits (List.mem_of_find?_eq_some hfound) h hfoundHits hhit
  simp only [decode, hfound]

/-- A word decodes only by a row that hits it. -/
theorem exists_row_of_decode {w : Command} {i : Instr} (h : decode w = .ok i) :
    ∃ row ∈ opTable, row.hits w = true ∧ row.build w = i := by
  unfold decode at h
  split at h
  case h_1 row hfound =>
    exact ⟨row, List.mem_of_find?_eq_some hfound, List.find?_some (p := fun row : OpRow => row.hits w) hfound, Except.ok.inj h⟩
  case h_2 => cases h

theorem rowOf_mem (i : Instr) : rowOf i ∈ opTable := by
  cases i <;> simp [rowOf, opTable]

/-- Every command's word hits the row of the command: the lemmas of `Laws.EncodeRow`, over all constructors. -/
theorem rowOf_hits_encode (i : Instr) : (rowOf i).hits (encode i) = true := by
  cases i with
  | eli ed imm => exact Laws.EncodeRow.eli ed imm
  | gfadd ed ea eb => exact Laws.EncodeRow.gfadd ed ea eb
  | gfsub ed ea eb => exact Laws.EncodeRow.gfsub ed ea eb
  | gfmul ed ea eb => exact Laws.EncodeRow.gfmul ed ea eb
  | gfdiv ed ea eb => exact Laws.EncodeRow.gfdiv ed ea eb
  | gfexp ed ea n => exact Laws.EncodeRow.gfexp ed ea n
  | mzero bd rows cols => exact Laws.EncodeRow.mzero bd rows cols
  | mident bd n => exact Laws.EncodeRow.mident bd n
  | mget ed ba r c => exact Laws.EncodeRow.mget ed ba r c
  | mset bd r c ea => exact Laws.EncodeRow.mset bd r c ea
  | mmul bd ba bb => exact Laws.EncodeRow.mmul bd ba bb
  | maug bd ba bb => exact Laws.EncodeRow.maug bd ba bb
  | msub bd ba rmin cmin rmax cmax => exact Laws.EncodeRow.msub bd ba rmin cmin rmax cmax
  | mrow bd ba r => exact Laws.EncodeRow.mrow bd ba r
  | mswap bd r1 r2 => exact Laws.EncodeRow.mswap bd r1 r2
  | minv bd ba => exact Laws.EncodeRow.minv bd ba
  | cinit k m => exact Laws.EncodeRow.cinit k m
  | cenc off len => exact Laws.EncodeRow.cenc off len
  | cvfy off len => exact Laws.EncodeRow.cvfy off len
  | cdec off len => exact Laws.EncodeRow.cdec off len
  | cgen bd => exact Laws.EncodeRow.cgen bd

/-! ### The fields of an encoded word (R90, R91) -/

@[simp] theorem toFin_selBits (x : Fin 16) : (selBits x).toFin = x := rfl

@[simp] theorem selBits_toFin (x : BitVec 4) : selBits x.toFin = x := rfl

/-- A field above the low part of a word lies in the high part. -/
theorem extractLsb'_append_high {v w start len : Nat} (hi : BitVec v) (lo : BitVec w) (h : w ≤ start) :
    @BitVec.extractLsb' (no_index (v + w)) start len (hi ++ lo) = hi.extractLsb' (start - w) len :=
  BitVec.extractLsb'_append_eq_of_le h

/-- A field inside the low part of a word lies there. -/
theorem extractLsb'_append_low {v w start len : Nat} (hi : BitVec v) (lo : BitVec w) (h : start + len ≤ w) :
    @BitVec.extractLsb' (no_index (v + w)) start len (hi ++ lo) = lo.extractLsb' start len :=
  BitVec.extractLsb'_append_eq_of_add_le h

/-- A command with every number cut to the width of its field (R90). -/
def cutToFields : Instr → Instr
  | .gfexp ed ea n => .gfexp ed ea (n % 2 ^ 32)
  | .mzero bd rows cols => .mzero bd (rows % 2 ^ 12) (cols % 2 ^ 12)
  | .mident bd n => .mident bd (n % 2 ^ 12)
  | .mget ed ba r c => .mget ed ba (r % 2 ^ 12) (c % 2 ^ 12)
  | .mset bd r c ea => .mset bd (r % 2 ^ 12) (c % 2 ^ 12) ea
  | .msub bd ba rmin cmin rmax cmax =>
    .msub bd ba (rmin % 2 ^ 12) (cmin % 2 ^ 12) (rmax % 2 ^ 12) (cmax % 2 ^ 12)
  | .mrow bd ba r => .mrow bd ba (r % 2 ^ 12)
  | .mswap bd r1 r2 => .mswap bd (r1 % 2 ^ 12) (r2 % 2 ^ 12)
  | .cinit k m => .cinit (k % 2 ^ 12) (m % 2 ^ 12)
  | .cenc off len => .cenc (off % 2 ^ 16) (len % 2 ^ 16)
  | .cvfy off len => .cvfy (off % 2 ^ 16) (len % 2 ^ 16)
  | .cdec off len => .cdec (off % 2 ^ 16) (len % 2 ^ 16)
  | i => i

/-- The operands read back out of an encoded word, format by format: each field lies where the encoder put it. -/
theorem build_encode (i : Instr) : (rowOf i).build (encode i) = cutToFields i := by
  cases i <;>
    simp (disch := decide) only [rowOf, rowEli, rowGfadd, rowGfsub, rowGfmul, rowGfdiv, rowGfexp, rowMzero, rowMident,
      rowMget, rowMset, rowMmul, rowMaug, rowMsub, rowMrow, rowMswap, rowMinv, rowCinit, rowCenc, rowCvfy, rowCdec,
      rowCgen, encode, fmtR, fmtD2, fmtDA2, fmtOL, fD, fA, fB, fN3, fN2, fN1, fN0, fImm32, fOff, fLen, fImm8,
      extractLsb'_append_high, extractLsb'_append_low, BitVec.extractLsb'_eq_self, Nat.reduceSub, toFin_selBits,
      BitVec.toNat_ofNat, cutToFields]

/-- Numbers that fit their fields are not cut. -/
theorem cutToFields_of_wellFormed {i : Instr} (h : WellFormed i) : cutToFields i = i := by
  unfold WellFormed at h
  cases i <;> simp_all [wellFormed, fitsN, fitsOL, fitsImm32, cutToFields, Nat.mod_eq_of_lt]

/-! ### The layout of a word that hits a row (R91, R94) -/

/-- Where the mask of a row is all ones, the word holds what the row asks for. -/
theorem field_of_masked {w mask mat : Command} (h : w &&& mask = mat) (start len : Nat)
    (hm : mask.extractLsb' start len = BitVec.allOnes len) : w.extractLsb' start len = mat.extractLsb' start len := by
  rw [← h, BitVec.extractLsb'_and, hm, BitVec.and_allOnes]

section Layout

variable {w mask : Command} {op : BitVec 8}

theorem opcode_of_masked (h : w &&& mask = op ++ 0#56) (hm : mask.extractLsb' 56 8 = BitVec.allOnes 8) :
    op = w.extractLsb' 56 8 := by
  rw [field_of_masked h 56 8 hm, BitVec.extractLsb'_append_eq_left]

theorem reserved_of_masked (h : w &&& mask = op ++ 0#56) (start len : Nat)
    (hm : mask.extractLsb' start len = BitVec.allOnes len) (hle : start + len ≤ 56) : 0#len = w.extractLsb' start len := by
  rw [field_of_masked h start len hm, extractLsb'_append_low _ _ hle, BitVec.extractLsb'_zero]

/-! The fields of a word, as the encoder writes them. -/

theorem ofNat_toNat_self {n : Nat} (x : BitVec n) : BitVec.ofNat n x.toNat = x := by
  rw [BitVec.ofNat_toNat, BitVec.setWidth_eq]

theorem selBits_fD : selBits (fD w) = w.extractLsb' 52 4 := rfl
theorem selBits_fA : selBits (fA w) = w.extractLsb' 48 4 := rfl
theorem selBits_fB : selBits (fB w) = w.extractLsb' 44 4 := rfl
theorem ofNat_fN3 : BitVec.ofNat 12 (fN3 w) = w.extractLsb' 36 12 := ofNat_toNat_self _
theorem ofNat_fN2 : BitVec.ofNat 12 (fN2 w) = w.extractLsb' 24 12 := ofNat_toNat_self _
theorem ofNat_fN1 : BitVec.ofNat 12 (fN1 w) = w.extractLsb' 12 12 := ofNat_toNat_self _
theorem ofNat_fN0 : BitVec.ofNat 12 (fN0 w) = w.extractLsb' 0 12 := ofNat_toNat_self _
theorem ofNat_fImm32 : BitVec.ofNat 32 (fImm32 w) = w.extractLsb' 0 32 := ofNat_toNat_self _
theorem ofNat_fOff : BitVec.ofNat 16 (fOff w) = w.extractLsb' 16 16 := ofNat_toNat_self _
theorem ofNat_fLen : BitVec.ofNat 16 (fLen w) = w.extractLsb' 0 16 := ofNat_toNat_self _

/-! One lemma per format of R91. The row asks for the opcode `op` and zeros, so under its mask the word is `op ++ 0#56`; the fields
and the reserved bits, put side by side, are the word. -/

theorem layout_I (h : w &&& 0xFF0FFFFFFFFFFF00#64 = op ++ 0#56) :
    op ++ selBits (fD w) ++ 0#44 ++ fImm8 w = w := by
  simp only [selBits_fD, fImm8, opcode_of_masked h (by decide),
    reserved_of_masked h 8 44 (by decide) (by decide),
    BitVec.extractLsb'_append_extractLsb'_eq_extractLsb']
  exact BitVec.extractLsb'_eq_self

theorem layout_R (h : w &&& 0xFF000FFFFFFFFFFF#64 = op ++ 0#56) :
    fmtR op (fD w) (fA w) (fB w) = w := by
  simp only [fmtR, selBits_fD, selBits_fA, selBits_fB, opcode_of_masked h (by decide),
    reserved_of_masked h 0 44 (by decide) (by decide),
    BitVec.extractLsb'_append_extractLsb'_eq_extractLsb']
  exact BitVec.extractLsb'_eq_self

theorem layout_X (h : w &&& 0xFF00FFFF00000000#64 = op ++ 0#56) :
    op ++ selBits (fD w) ++ selBits (fA w) ++ 0#16 ++ BitVec.ofNat 32 (fImm32 w) = w := by
  simp only [selBits_fD, selBits_fA, ofNat_fImm32, opcode_of_masked h (by decide),
    reserved_of_masked h 32 16 (by decide) (by decide),
    BitVec.extractLsb'_append_extractLsb'_eq_extractLsb']
  exact BitVec.extractLsb'_eq_self

theorem layout_D2 (h : w &&& 0xFF0FFFFFFF000000#64 = op ++ 0#56) :
    fmtD2 op (fD w) (fN1 w) (fN0 w) = w := by
  simp only [fmtD2, selBits_fD, ofNat_fN1, ofNat_fN0, opcode_of_masked h (by decide),
    reserved_of_masked h 24 28 (by decide) (by decide),
    BitVec.extractLsb'_append_extractLsb'_eq_extractLsb']
  exact BitVec.extractLsb'_eq_self

theorem layout_D1 (h : w &&& 0xFF0FFFFFFFFFF000#64 = op ++ 0#56) :
    op ++ selBits (fD w) ++ 0#40 ++ BitVec.ofNat 12 (fN0 w) = w := by
  simp only [selBits_fD, ofNat_fN0, opcode_of_masked h (by decide),
    reserved_of_masked h 12 40 (by decide) (by decide),
    BitVec.extractLsb'_append_extractLsb'_eq_extractLsb']
  exact BitVec.extractLsb'_eq_self

theorem layout_DA2 (h : w &&& 0xFF00FFFFFF000000#64 = op ++ 0#56) :
    fmtDA2 op (fD w) (fA w) (fN1 w) (fN0 w) = w := by
  simp only [fmtDA2, selBits_fD, selBits_fA, ofNat_fN1, ofNat_fN0, opcode_of_masked h (by decide),
    reserved_of_masked h 24 24 (by decide) (by decide),
    BitVec.extractLsb'_append_extractLsb'_eq_extractLsb']
  exact BitVec.extractLsb'_eq_self

theorem layout_DA4 (h : w &&& 0xFF00000000000000#64 = op ++ 0#56) :
    op ++ selBits (fD w) ++ selBits (fA w) ++ BitVec.ofNat 12 (fN3 w) ++ BitVec.ofNat 12 (fN2 w)
      ++ BitVec.ofNat 12 (fN1 w) ++ BitVec.ofNat 12 (fN0 w) = w := by
  simp only [selBits_fD, selBits_fA, ofNat_fN3, ofNat_fN2, ofNat_fN1, ofNat_fN0, opcode_of_masked h (by decide),
    BitVec.extractLsb'_append_extractLsb'_eq_extractLsb']
  exact BitVec.extractLsb'_eq_self

theorem layout_DA1 (h : w &&& 0xFF00FFFFFFFFF000#64 = op ++ 0#56) :
    op ++ selBits (fD w) ++ selBits (fA w) ++ 0#36 ++ BitVec.ofNat 12 (fN0 w) = w := by
  simp only [selBits_fD, selBits_fA, ofNat_fN0, opcode_of_masked h (by decide),
    reserved_of_masked h 12 36 (by decide) (by decide),
    BitVec.extractLsb'_append_extractLsb'_eq_extractLsb']
  exact BitVec.extractLsb'_eq_self

theorem layout_DA (h : w &&& 0xFF00FFFFFFFFFFFF#64 = op ++ 0#56) :
    op ++ selBits (fD w) ++ selBits (fA w) ++ 0#48 = w := by
  simp only [selBits_fD, selBits_fA, opcode_of_masked h (by decide),
    reserved_of_masked h 0 48 (by decide) (by decide),
    BitVec.extractLsb'_append_extractLsb'_eq_extractLsb']
  exact BitVec.extractLsb'_eq_self

theorem layout_N2 (h : w &&& 0xFFFFFFFFFF000000#64 = op ++ 0#56) :
    op ++ 0#32 ++ BitVec.ofNat 12 (fN1 w) ++ BitVec.ofNat 12 (fN0 w) = w := by
  simp only [ofNat_fN1, ofNat_fN0, opcode_of_masked h (by decide),
    reserved_of_masked h 24 32 (by decide) (by decide),
    BitVec.extractLsb'_append_extractLsb'_eq_extractLsb']
  exact BitVec.extractLsb'_eq_self

theorem layout_OL (h : w &&& 0xFFFFFFFF00000000#64 = op ++ 0#56) :
    fmtOL op (fOff w) (fLen w) = w := by
  simp only [fmtOL, ofNat_fOff, ofNat_fLen, opcode_of_masked h (by decide),
    reserved_of_masked h 32 24 (by decide) (by decide),
    BitVec.extractLsb'_append_extractLsb'_eq_extractLsb']
  exact BitVec.extractLsb'_eq_self

theorem layout_D (h : w &&& 0xFF0FFFFFFFFFFFFF#64 = op ++ 0#56) :
    op ++ selBits (fD w) ++ 0#52 = w := by
  simp only [selBits_fD, opcode_of_masked h (by decide),
    reserved_of_masked h 0 52 (by decide) (by decide),
    BitVec.extractLsb'_append_extractLsb'_eq_extractLsb']
  exact BitVec.extractLsb'_eq_self

end Layout

/-- A word that a row hits is the encoding of what the row reads out of it: by the format of each row. -/
theorem encode_build {row : OpRow} (h : row ∈ opTable) {w : Command} (hhit : row.hits w = true) :
    encode (row.build w) = w := by
  have hw := (row.hits_iff w).mp hhit
  simp only [opTable, List.cons_append, List.nil_append, List.mem_cons, List.not_mem_nil, or_false] at h
  rcases h with rfl | rfl | rfl | rfl | rfl | rfl | rfl | rfl | rfl | rfl | rfl | rfl | rfl | rfl | rfl | rfl | rfl | rfl | rfl | rfl | rfl
  · exact layout_I hw
  · exact layout_R hw
  · exact layout_R hw
  · exact layout_R hw
  · exact layout_R hw
  · exact layout_X hw
  · exact layout_D2 hw
  · exact layout_D1 hw
  · exact layout_DA2 hw
  · exact layout_DA2 hw
  · exact layout_R hw
  · exact layout_R hw
  · exact layout_DA4 hw
  · exact layout_DA1 hw
  · exact layout_D2 hw
  · exact layout_DA hw
  · exact layout_N2 hw
  · exact layout_OL hw
  · exact layout_OL hw
  · exact layout_OL hw
  · exact layout_D hw

/-- What a row reads out of a word fits the fields. -/
theorem wellFormed_build {row : OpRow} (h : row ∈ opTable) (w : Command) : WellFormed (row.build w) := by
  have hN : ∀ x : BitVec 12, fitsN x.toNat = true := fun x => decide_eq_true x.isLt
  have hOL : ∀ x : BitVec 16, fitsOL x.toNat = true := fun x => decide_eq_true x.isLt
  have hImm : ∀ x : BitVec 32, fitsImm32 x.toNat = true := fun x => decide_eq_true x.isLt
  revert row
  simp only [opTable, List.cons_append, List.nil_append, List.forall_mem_cons]
  simp [WellFormed, wellFormed, rowEli, rowGfadd, rowGfsub, rowGfmul, rowGfdiv, rowGfexp, rowMzero, rowMident,
      rowMget, rowMset, rowMmul, rowMaug, rowMsub, rowMrow, rowMswap, rowMinv, rowCinit, rowCenc, rowCvfy, rowCdec,
      rowCgen, fN3, fN2, fN1, fN0, fImm32, fOff, fLen, hN, hOL, hImm, -BitVec.extractLsb'_toNat]

/-- A list without duplicates whose members are all equal has at most one. -/
theorem length_le_one_of_nodup {α : Type} {l : List α} (hnodup : l.Nodup) (hsame : ∀ a ∈ l, ∀ b ∈ l, a = b) :
    l.length ≤ 1 := by
  match l with
  | [] => exact Nat.zero_le _
  | [_] => exact Nat.le_refl _
  | a :: b :: rest =>
    have hne : a ≠ b := fun hab => (List.nodup_cons.mp hnodup).1 (hab ▸ List.mem_cons_self)
    exact absurd (hsame a (by simp) b (by simp)) hne

/-! ### The obligations -/

/-- Settles O1: the row of the command hits its word, and reads the operands back out of it. -/
theorem decodeOfEncodeIsTheCommand : Obligations.DecodeOfEncodeIsTheCommand := by
  intro i hi
  rw [decode_of_hits (rowOf_mem i) (rowOf_hits_encode i), build_encode, cutToFields_of_wellFormed hi]

/-- Settles O2: the row that hit fixes every bit of the word that is in no field. -/
theorem encodeOfDecodeIsTheWord : Obligations.EncodeOfDecodeIsTheWord := by
  intro w i hdec
  obtain ⟨row, hrow, hhit, rfl⟩ := exists_row_of_decode hdec
  exact ⟨wellFormed_build hrow w, encode_build hrow hhit⟩

/-- Settles O3: no row stands twice in the map, and two rows that hit one word are one row. -/
theorem atMostOneOpcodeRowHits : Obligations.AtMostOneOpcodeRowHits := by
  intro w
  have hnodup : (opTable.filter fun row => row.hits w).Nodup := (List.Nodup.of_map _ opcodes_nodup).filter _
  have hsame : ∀ a ∈ opTable.filter (fun row => row.hits w), ∀ b ∈ opTable.filter (fun row => row.hits w), a = b := by
    simp only [List.mem_filter]
    exact fun a ha b hb => row_eq_of_hits ha.1 hb.1 ha.2 hb.2
  exact length_le_one_of_nodup hnodup hsame

/-- Settles O4: the decoder evaluated on the twelve words. -/
theorem specWordsDecodeToTheirCommands : Obligations.SpecWordsDecodeToTheirCommands :=
  ⟨rfl, rfl, rfl, rfl, rfl, rfl, rfl, rfl, rfl, rfl, rfl, rfl⟩

end Sys2Proof

/-! The register port, register by register (10_state.md R22, R35, R38 to R41), the shard port (20_memory.md R62, R72), the steps of host
and engine (R70 to R76), and reset (70_reset_and_hazards.md R290, R291). -/

namespace Sys2Proof

/-! ### Bits of words put together from fields -/

/-- A bit above the low part of a word lies in the high part. -/
theorem getLsbD_append_high {v w i : Nat} (hi : BitVec v) (lo : BitVec w) (h : w ≤ i) :
    @BitVec.getLsbD (no_index (v + w)) (hi ++ lo) i = hi.getLsbD (i - w) := by
  rw [BitVec.getLsbD_append, if_neg (Nat.not_lt.mpr h)]

/-- A bit inside the low part of a word lies there. -/
theorem getLsbD_append_low {v w i : Nat} (hi : BitVec v) (lo : BitVec w) (h : i < w) :
    @BitVec.getLsbD (no_index (v + w)) (hi ++ lo) i = lo.getLsbD i := by
  rw [BitVec.getLsbD_append, if_pos h]

/-- A value under leading zeros is the number it was. -/
theorem toNat_zero_append {v w : Nat} (lo : BitVec w) : (0#v ++ lo).toNat = lo.toNat := by
  rw [BitVec.toNat_append, BitVec.toNat_ofNat, Nat.zero_mod, Nat.zero_shiftLeft, Nat.zero_or]

end Sys2Proof

namespace Sys2Proof.Machine

/-! ### STATUS (R35) -/

@[simp] theorem regRead_status (s : State) : regRead s 0x000#12 = s.status := rfl

section StatusFields

variable (s : State)

theorem State.status_gvalid_bit : s.status.getLsbD 1 = s.gvalid := by
  simp (disch := decide) only [State.status, getLsbD_append_high, getLsbD_append_low, Nat.reduceSub, BitVec.getLsbD_ofBool,
    decide_true, Bool.true_and]

theorem State.status_vfy_bit : s.status.getLsbD 2 = s.vfy := by
  simp (disch := decide) only [State.status, getLsbD_append_high, getLsbD_append_low, Nat.reduceSub, BitVec.getLsbD_ofBool,
    decide_true, Bool.true_and]

theorem State.status_bit_3 : s.status.getLsbD 3 = false := by
  simp (disch := decide) only [State.status, getLsbD_append_high, getLsbD_append_low, Nat.reduceSub, BitVec.getLsbD_zero]

theorem State.status_err_field : s.status.extractLsb' 4 4 = errField s.err := by
  simp (disch := decide) only [State.status, extractLsb'_append_high, extractLsb'_append_low, Nat.reduceSub,
    BitVec.extractLsb'_eq_self]

theorem State.status_bits_31_8 {j : Nat} (hj : 8 ≤ j) : s.status.getLsbD j = false := by
  simp (disch := omega) only [State.status, getLsbD_append_high, BitVec.getLsbD_zero]

end StatusFields

/-! ### The readable registers by number (R41) -/

/-- A register number of the map as a number. -/
theorem toNat_registerNumber {x : Nat} (hx : x < 4096) : (BitVec.ofNat 12 x).toNat = x := by
  rw [BitVec.toNat_ofNat, Nat.mod_eq_of_lt hx]

theorem regRead_shcount (s : State) : regRead s 0x003#12 = 0#23 ++ s.shcount := rfl

theorem regRead_elem (s : State) (i : EReg) : regRead s (BitVec.ofNat 12 (0x010 + i.val)) = 0#24 ++ s.elem i := by
  have hi : i.val < 16 := i.isLt
  have hn : (BitVec.ofNat 12 (0x010 + i.val)).toNat = 0x010 + i.val := toNat_registerNumber (by omega)
  have hfin : Fin.ofNat 16 (0x010 + i.val - 0x010) = i := Fin.ext (by simp [Fin.ofNat, Nat.mod_eq_of_lt hi])
  have hrange : 0x010 ≤ 0x010 + i.val ∧ 0x010 + i.val ≤ 0x01F := by omega
  have hfixed : 0x010 + i.val ≠ 0 ∧ 0x010 + i.val ≠ 1 ∧ 0x010 + i.val ≠ 2 ∧ 0x010 + i.val ≠ 3 := by omega
  simp only [regRead, hn, hfixed, hrange, hfin, and_self, if_true, if_false]

theorem regRead_present (s : State) {i : Nat} (hi : i < 8) :
    regRead s (BitVec.ofNat 12 (0x020 + i)) = s.present.extractLsb' (32 * i) 32 := by
  have hn : (BitVec.ofNat 12 (0x020 + i)).toNat = 0x020 + i := toNat_registerNumber (by omega)
  have hrange : 0x020 ≤ 0x020 + i ∧ 0x020 + i ≤ 0x027 := by omega
  have helem : ¬(0x010 ≤ 0x020 + i ∧ 0x020 + i ≤ 0x01F) := by omega
  have hfixed : 0x020 + i ≠ 0 ∧ 0x020 + i ≠ 1 ∧ 0x020 + i ≠ 2 ∧ 0x020 + i ≠ 3 := by omega
  simp only [regRead, hn, hfixed, helem, hrange, and_self, if_true, if_false, Nat.add_sub_cancel_left]

theorem regRead_shlen (s : State) {t : Nat} (ht : t < 256) :
    regRead s (BitVec.ofNat 12 (0x100 + t)) = BitVec.ofNat 32 (s.shlenAt t) := by
  have hn : (BitVec.ofNat 12 (0x100 + t)).toNat = 0x100 + t := toNat_registerNumber (by omega)
  have hrange : 0x100 ≤ 0x100 + t ∧ 0x100 + t ≤ 0x1FF := by omega
  have hlow : ¬(0x010 ≤ 0x100 + t ∧ 0x100 + t ≤ 0x01F) ∧ ¬(0x020 ≤ 0x100 + t ∧ 0x100 + t ≤ 0x027) := by omega
  have hfixed : 0x100 + t ≠ 0 ∧ 0x100 + t ≠ 1 ∧ 0x100 + t ≠ 2 ∧ 0x100 + t ≠ 3 := by omega
  simp only [regRead, hn, hfixed, hlow, hrange, and_self, if_true, if_false, Nat.add_sub_cancel_left]

/-! ### The writable registers by number (R38 to R40, R72) -/

theorem regWrite_shcount (s : State) (v : RegWord) :
    regWrite 0x003#12 v s = { s with shcount := v.extractLsb' 0 9 } := rfl

theorem regWrite_present (s : State) (v : RegWord) {i : Nat} (hi : i < 8) :
    regWrite (BitVec.ofNat 12 (0x020 + i)) v s = { s with present := setPresentWord s.present i v } := by
  have hn : (BitVec.ofNat 12 (0x020 + i)).toNat = 0x020 + i := toNat_registerNumber (by omega)
  have hrange : 0x020 ≤ 0x020 + i ∧ 0x020 + i ≤ 0x027 := by omega
  have hfixed : 0x020 + i ≠ 3 := by omega
  simp only [regWrite, hn, hfixed, hrange, and_self, if_true, if_false, Nat.add_sub_cancel_left]

theorem regWrite_shlen (s : State) (v : RegWord) {t : Nat} (ht : t < 256) :
    regWrite (BitVec.ofNat 12 (0x100 + t)) v s =
      { s with shlen := s.shlen.setIfInBounds t (v.extractLsb' 0 16) } := by
  have hn : (BitVec.ofNat 12 (0x100 + t)).toNat = 0x100 + t := toNat_registerNumber (by omega)
  have hrange : 0x100 ≤ 0x100 + t ∧ 0x100 + t ≤ 0x1FF := by omega
  have hlow : 0x100 + t ≠ 3 ∧ ¬(0x020 ≤ 0x100 + t ∧ 0x100 + t ≤ 0x027) := by omega
  simp only [regWrite, hn, hlow, hrange, and_self, if_true, if_false, Nat.add_sub_cancel_left]

/-- A write to a register does not look at the events to come. -/
theorem regWrite_inputs (n : BitVec 12) (v : RegWord) (s : State) (rest : List Event) :
    regWrite n v { s with inputs := rest } = { regWrite n v s with inputs := rest } := by
  simp only [regWrite]
  split_ifs <;> rfl

/-- SHLEN[u] after the register of SHLEN[t] is set (R39). -/
theorem shlenAt_set (s : State) {t : Nat} (ht : t < 256) (x : BitVec 16) (u : Nat) :
    State.shlenAt { s with shlen := s.shlen.setIfInBounds t x } u = if t = u then x.toNat else s.shlenAt u := by
  by_cases htu : t = u
  · subst htu
    simp [State.shlenAt, ht]
  · simp [State.shlenAt, htu]

/-- The mask of one register of the eight. -/
theorem getLsbD_registerMask (j : Nat) : (0xFFFFFFFF#256).getLsbD j = decide (j < 32) := by
  have hones : 0xFFFFFFFF#256 = (BitVec.allOnes 32).setWidth 256 := by decide
  have hwidth : j < 32 → j < 256 := by omega
  rw [hones, BitVec.getLsbD_setWidth, BitVec.getLsbD_allOnes]
  simpa using hwidth

/-- The bits of PRESENT after register `i` of the eight is replaced (R40): those of the register are the written ones, those below
and above it are kept. -/
theorem getLsbD_setPresentWord (present : BitVec 256) (v : RegWord) (i : Nat) {u : Nat} (hu : u < 256) :
    (setPresentWord present i v).getLsbD u = if u / 32 = i then v.getLsbD (u % 32) else present.getLsbD u := by
  simp only [setPresentWord, BitVec.getLsbD_or, BitVec.getLsbD_and, BitVec.getLsbD_not, BitVec.getLsbD_shiftLeft,
    BitVec.getLsbD_setWidth, getLsbD_registerMask, hu, decide_true, Bool.true_and]
  rcases Nat.lt_trichotomy (u / 32) i with hlt | heq | hgt
  · have hbelow : u < 32 * i := by omega
    simp [hbelow, hlt.ne]
  · have hnot : ¬u < 32 * i := by omega
    have hoffset : u - 32 * i = u % 32 := by omega
    have hin : u % 32 < 32 ∧ u % 32 < 256 := by omega
    simp only [hnot, hoffset, hin, heq, decide_true, decide_false, Bool.not_false, Bool.not_true, Bool.and_false,
      Bool.false_or, Bool.true_and, if_true]
  · have hnot : ¬u < 32 * i := by omega
    have habove : 32 ≤ u - 32 * i := by omega
    simp [hnot, Nat.not_lt.mpr habove, hgt.ne', BitVec.getLsbD_of_ge v _ habove]

/-! ### Shard memory (R62, R72, R290) -/

/-- A read after the write of one byte, both at addresses of the shard port. -/
theorem memRead_memWrite_port {mem : Memory} (h : Memory.wf mem = true) (sh sh' : BitVec 8) (p p' : BitVec 16) (v : Byte) :
    memRead (memWrite mem sh.toNat p.toNat v) sh'.toNat p'.toNat =
      if sh = sh' ∧ p = p' then v else memRead mem sh'.toNat p'.toNat := by
  rw [memRead_memWrite h p.isLt p'.isLt]
  simp only [← BitVec.toNat_eq]

theorem wf_memWrite_port {mem : Memory} (h : Memory.wf mem = true) (sh : BitVec 8) (p : BitVec 16) (v : Byte) :
    Memory.wf (memWrite mem sh.toNat p.toNat v) = true :=
  wf_memWrite h sh.isLt p.isLt

/-- Shard memory after the bytes of a list are written that all agree with `f` holds `f` where the list has a byte, and where it was
`f` before. -/
theorem memRead_foldl_memWrite {f : BitVec 8 → BitVec 16 → Byte} {bytes : List ShardByte} (hf : ∀ b ∈ bytes, b.v = f b.s b.p)
    {mem : Memory} (hwf : Memory.wf mem = true) {sh : BitVec 8} {p : BitVec 16}
    (h : (∃ b ∈ bytes, b.s = sh ∧ b.p = p) ∨ memRead mem sh.toNat p.toNat = f sh p) :
    memRead (bytes.foldl (fun mem b => memWrite mem b.s.toNat b.p.toNat b.v) mem) sh.toNat p.toNat = f sh p := by
  induction bytes generalizing mem with
  | nil => simpa using h
  | cons b rest ih =>
    refine ih (fun c hc => hf c (List.mem_cons_of_mem b hc)) (wf_memWrite_port hwf b.s b.p b.v) ?_
    rw [memRead_memWrite_port hwf, hf b List.mem_cons_self]
    by_cases hhere : b.s = sh ∧ b.p = p
    · exact .inr (by rw [if_pos hhere, hhere.1, hhere.2])
    · simpa [hhere] using h

/-- A byte that a reset event lists is what it lists there (R291), if all it lists agrees with `f`. -/
theorem shardRead_resetEvent {f : BitVec 8 → BitVec 16 → Byte} {bytes : List ShardByte} (hf : ∀ b ∈ bytes, b.v = f b.s b.p)
    {sh : BitVec 8} {p : BitVec 16} (h : ∃ b ∈ bytes, b.s = sh ∧ b.p = p) (s : State) :
    shardRead (resetEvent bytes s) sh p = f sh p :=
  memRead_foldl_memWrite (mem := []) hf rfl (.inl h)

/-- Every byte of shard memory with the value `f` gives it. -/
def allBytes (f : BitVec 8 → BitVec 16 → Byte) : List ShardByte :=
  (List.finRange 256).flatMap fun s => (List.finRange 65536).map fun p =>
    ⟨BitVec.ofFin s, BitVec.ofFin p, f (BitVec.ofFin s) (BitVec.ofFin p)⟩

theorem mem_allBytes (f : BitVec 8 → BitVec 16 → Byte) (b : ShardByte) : b ∈ allBytes f ↔ b.v = f b.s b.p := by
  simp only [allBytes, List.mem_flatMap, List.mem_map, List.mem_finRange, true_and]
  constructor
  · rintro ⟨s, p, rfl⟩
    rfl
  · intro hv
    exact ⟨b.s.toFin, b.p.toFin, by simp [← hv]⟩

/-! ### Reset and launch (R45, R290, R291) -/

theorem step_of_reset {s : State} {contents : List ShardByte} {rest : List Event} (hi : s.inputs = .reset contents :: rest) :
    step s = .next (resetEvent contents { s with inputs := rest }) := by
  simp only [step, hi]

/-- The reset state meets the invariant, whatever shard memory in canonical form, CMDREG and the lists of the model's own hold. -/
theorem inv_reset {mem : Memory} (h : Memory.wf mem = true) (w : Command) (inputs : List Event) (replies : List Reply) :
    Inv { State.reset with shard := mem, cmdreg := w, inputs := inputs, replies := replies } where
  banks b := (congrArg bankOk (State.reset_bank b)).trans (by decide)
  codec := rfl
  shard := h

/-! ### The obligations -/

/-- Settles O7: both are the engine's turn. -/
theorem stepRunsTheDecodedCommand : Obligations.StepRunsTheDecodedCommand := by
  have hturn : ∀ (s s' : State) (i : Instr), engineTurn s s' → decode s.cmdreg = .ok i → step s = exec i s' := by
    intro s s' i hturn hdec
    rw [step_of_engineTurn hturn]
    simp only [executeStep, engineTurn_cmdreg hturn, hdec]
  exact ⟨hturn, fun s nbits w i hdec => hturn _ _ i ⟨rfl, .inr ⟨s.inputs, rfl, rfl⟩⟩ hdec⟩

/-- Settles O10: an idle core takes every transaction, by the meaning of each. -/
theorem idleHostTransactionsTakeEffect : Obligations.IdleHostTransactionsTakeEffect := by
  intro s rest hidle
  refine ⟨fun n hi => ?regRead, fun sh p hi => ?shardRead, fun n v hi => ?regWrite, fun sh p v hi => ?shardWrite⟩
  case regRead => exact step_of_idle_transaction hidle hi rfl
  case shardRead => exact step_of_idle_transaction hidle hi rfl
  case regWrite => exact (step_of_idle_transaction hidle hi rfl).trans (congrArg _ (regWrite_inputs n v s rest))
  case shardWrite => exact step_of_idle_transaction hidle hi rfl

/-- Settles O11: STATUS field by field, and the ten codes. -/
theorem statusRegisterLayout : Obligations.StatusRegisterLayout := by
  refine ⟨fun s => ?fields, rfl, by decide⟩
  case fields =>
    rw [regRead_status]
    exact ⟨s.status_busy_bit, s.status_gvalid_bit, s.status_vfy_bit, s.status_bit_3, s.status_err_field,
      fun j => s.status_bits_31_8, fun v => regWrite_of_not_writable s v (by decide) (by decide) (by decide)⟩

/-- Settles O13: the register holds the element under leading zeros, and is no writable one. -/
theorem elementRegistersAreReadOnlyToTheHost : Obligations.ElementRegistersAreReadOnlyToTheHost := by
  intro s i v
  have hi : i.val < 16 := i.isLt
  have hn : (BitVec.ofNat 12 (0x010 + i.val)).toNat = 0x010 + i.val := toNat_registerNumber (by omega)
  refine ⟨?value, ?zeros, regWrite_of_not_writable s v (by omega) (by omega) (by omega)⟩
  case value => rw [regRead_elem, BitVec.extractLsb'_append_eq_right]
  case zeros => rw [regRead_elem, BitVec.extractLsb'_append_eq_left]; rfl

/-- Settles O15: the two registers take the low bits of the write and read back under leading zeros. -/
theorem descriptorWritesKeepTheirWritableBits : Obligations.DescriptorWritesKeepTheirWritableBits := by
  have hlow : ∀ (v : RegWord) (n : Nat), (v.extractLsb' 0 n).toNat = v.toNat % 2 ^ n := fun v n => by
    rw [BitVec.extractLsb'_toNat, Nat.shiftRight_zero]
  refine ⟨fun s v => ?shcount, fun s v t ht => ?shlen⟩
  case shcount =>
    rw [regRead_shcount, regWrite_shcount, toNat_zero_append]
    exact ⟨hlow v 9, hlow v 9, rfl⟩
  case shlen =>
    have hset : ∀ u, (regWrite (BitVec.ofNat 12 (0x100 + t)) v s).shlenAt u = if t = u then v.toNat % 65536 else s.shlenAt u :=
      fun u => by rw [regWrite_shlen s v ht, shlenAt_set s ht, hlow v 16]; rfl
    have hself := (hset t).trans (if_pos rfl)
    refine ⟨hself, ?readBack, fun u hu => (hset u).trans (if_neg (Ne.symm hu)), ?frame⟩
    case readBack =>
      rw [regRead_shlen _ ht, hself, BitVec.toNat_ofNat]
      omega
    case frame => rw [regWrite_shlen s v ht]

/-- Settles O16: a register of the eight is 32 bits of PRESENT, and a write replaces those. -/
theorem presentBitsArePackedInEightRegisters : Obligations.PresentBitsArePackedInEightRegisters := by
  intro s v i hi
  have hset : ∀ u, u < 256 → (regWrite (BitVec.ofNat 12 (0x020 + i)) v s).presentAt u =
      if u / 32 = i then v.getLsbD (u % 32) else s.presentAt u := fun u hu => by
    rw [regWrite_present s v hi]
    exact getLsbD_setPresentWord s.present v i hu
  refine ⟨fun j hj => ⟨?read, ?write⟩, fun u hu hne => (hset u hu).trans (if_neg hne), ?frame⟩
  case read =>
    rw [regRead_present s hi, BitVec.getLsbD_extractLsb', decide_eq_true hj, Bool.true_and]
    rfl
  case write =>
    have hdiv : (32 * i + j) / 32 = i := by omega
    have hmod : (32 * i + j) % 32 = j := by omega
    rw [hset _ (by omega), if_pos hdiv, hmod]
  case frame => rw [regWrite_present s v hi]

/-- Settles O17, from the laws of shard memory. -/
theorem shardPortReadsWhatItWrote : Obligations.ShardPortReadsWhatItWrote :=
  fun _ sh p v hwf => ⟨fun sh' p' => memRead_memWrite_port hwf sh sh' p p' v, rfl, wf_memWrite_port hwf sh p v⟩

/-- Settles O18: reset is the one event the step does not look at BUSY for. -/
theorem resetTakesEffectAtAnyTime : Obligations.ResetTakesEffectAtAnyTime :=
  fun _ _ _ hi => step_of_reset hi

/-- Settles O19: the reset event that lists every byte with the value wanted there. -/
theorem resetCanLeaveAnyShardContents : Obligations.ResetCanLeaveAnyShardContents :=
  fun f => ⟨allBytes f, fun s sh p =>
    shardRead_resetEvent (fun b => (mem_allBytes f b).mp) ⟨⟨sh, p, f sh p⟩, (mem_allBytes f _).mpr rfl, rfl, rfl⟩ s⟩

/-- Settles O20: the reset state register by register. -/
theorem resetStateHoldsTheStatedValues : Obligations.ResetStateHoldsTheStatedValues :=
  ⟨State.reset_elem, fun b => by rw [State.reset_bank]; exact ⟨rfl, rfl⟩, rfl, rfl, rfl, rfl, by decide, rfl, State.reset_shlenAt,
    State.reset_presentAt, by decide⟩

/-- Settles O21: a launch state is the reset state but for what is free, and there GVALID = 0. -/
theorem launchStatesMeetTheInvariant : Obligations.LaunchStatesMeetTheInvariant := by
  refine ⟨⟨rfl, rfl⟩, fun s ⟨hwf, hs⟩ => ?launch⟩
  case launch =>
    have hgvalid : ¬s.gvalid = true := by rw [hs]; exact Bool.false_ne_true
    refine ⟨?inv, fun h => absurd h hgvalid, fun h => absurd h hgvalid⟩
    case inv =>
      rw [hs]
      exact inv_reset hwf s.cmdreg s.inputs []

end Sys2Proof.Machine

/-! The field (40_field.md R126 to R132): products as sums of exponents, the laws that make the bytes a field, multiplication by doubling
and XOR, and exponentiation. -/

namespace Sys2Proof.Machine

/-! ### Products through the ROMs (R129, R130) -/

/-- The antilog ROM has period 255 (R125). -/
theorem ALOG_mod {i : Nat} (hi : i < 510) : ALOG (i % 255) = ALOG i := by
  rcases Nat.lt_or_ge i 255 with h | h
  · rw [Nat.mod_eq_of_lt h]
  · obtain ⟨j, rfl⟩ := Nat.exists_eq_add_of_le' h
    have hj : j < 255 := by omega
    rw [Nat.add_mod_right, Nat.mod_eq_of_lt hj, ALOG_add_255 hj]

/-- A product of nonzero elements has the sum of the exponents, modulo the order of the group. -/
theorem gfMul_eq_ALOG_mod {a b : Byte} (ha : a ≠ 0) (hb : b ≠ 0) : gfMul a b = ALOG ((LOG a + LOG b) % 255) := by
  have hle := LOG_add_LOG_le ha hb
  rw [gfMul_of_ne_zero ha hb, ALOG_mod (by omega)]

theorem LOG_gfMul {a b : Byte} (ha : a ≠ 0) (hb : b ≠ 0) : LOG (gfMul a b) = (LOG a + LOG b) % 255 := by
  rw [gfMul_eq_ALOG_mod ha hb, LOG_ALOG (Nat.mod_lt _ (by decide))]

theorem gfMul_ne_zero {a b : Byte} (ha : a ≠ 0) (hb : b ≠ 0) : gfMul a b ≠ 0 := by
  have hle := LOG_add_LOG_le ha hb
  rw [gfMul_of_ne_zero ha hb]
  exact ALOG_ne_zero (by omega)

@[simp] theorem gfMul_zero_left (b : Byte) : gfMul 0#8 b = 0#8 := gfMul_of_zero (.inl rfl)

@[simp] theorem gfMul_zero_right (a : Byte) : gfMul a 0#8 = 0#8 := gfMul_of_zero (.inr rfl)

theorem gfMul_comm (a b : Byte) : gfMul a b = gfMul b a := by
  simp only [gfMul, or_comm, Nat.add_comm]

theorem gfMul_assoc (a b c : Byte) : gfMul (gfMul a b) c = gfMul a (gfMul b c) := by
  by_cases ha : a = 0
  · simp [ha]
  by_cases hb : b = 0
  · simp [hb]
  by_cases hc : c = 0
  · simp [hc]
  have hsum : ((LOG a + LOG b) % 255 + LOG c) % 255 = (LOG a + (LOG b + LOG c) % 255) % 255 := by omega
  rw [gfMul_eq_ALOG_mod (gfMul_ne_zero ha hb) hc, gfMul_eq_ALOG_mod ha (gfMul_ne_zero hb hc), LOG_gfMul ha hb,
    LOG_gfMul hb hc, hsum]

/-- A quotient times the divisor is the dividend (R130). -/
theorem gfMul_gfQuot (a : Byte) {b : Byte} (hb : b ≠ 0) : gfMul (gfQuot a b) b = a := by
  by_cases ha : a = 0
  · rw [ha, gfQuot_zero_left]
    exact gfMul_zero_left b
  · have hla := LOG_lt a ha
    have hlb := LOG_lt b hb
    have hexp : (LOG a + 255 - LOG b) % 255 < 255 := Nat.mod_lt _ (by decide)
    have hsum : ((LOG a + 255 - LOG b) % 255 + LOG b) % 255 = LOG a := by omega
    rw [gfQuot_of_ne_zero ha, gfMul_eq_ALOG_mod (ALOG_ne_zero (by omega)) hb, LOG_ALOG hexp, hsum, ALOG_LOG a ha]

/-! ### Addition -/

theorem gfAdd_comm (a b : Byte) : gfAdd a b = gfAdd b a := BitVec.xor_comm a b

theorem gfAdd_assoc (a b c : Byte) : gfAdd (gfAdd a b) c = gfAdd a (gfAdd b c) := BitVec.xor_assoc a b c

@[simp] theorem gfAdd_zero (a : Byte) : gfAdd a 0#8 = a := BitVec.xor_zero

@[simp] theorem gfAdd_self (a : Byte) : gfAdd a a = 0#8 := BitVec.xor_self

/-! ### Multiplication distributes over addition

Multiplication by 2 is a doubling, a shift and a conditional XOR with `POLY`, and so is linear; every nonzero element is a power of 2. -/

theorem gfMul_two : ∀ x : Byte, gfMul 2 x = (x <<< 1) ^^^ (if x.msb then 29#8 else 0) := by
  decide

theorem gfMul_two_gfAdd (x y : Byte) : gfMul 2 (gfAdd x y) = gfAdd (gfMul 2 x) (gfMul 2 y) := by
  have hreduce : (if (x ^^^ y).msb then 29#8 else 0) = (if x.msb then 29#8 else 0) ^^^ (if y.msb then 29#8 else 0) := by
    rw [BitVec.msb_xor]
    cases x.msb <;> cases y.msb <;> decide
  rw [gfMul_two, gfMul_two, gfMul_two, gfAdd, gfAdd, BitVec.shiftLeft_xor_distrib, hreduce]
  ac_rfl

theorem ALOG_succ {i : Nat} (hi : i + 1 < 255) : ALOG (i + 1) = gfMul 2 (ALOG i) := by
  have htwo : LOG 2 = 1 := by decide
  rw [gfMul_of_ne_zero (by decide) (ALOG_ne_zero (by omega)), LOG_ALOG (by omega), htwo, Nat.add_comm]

theorem gfMul_ALOG_gfAdd {i : Nat} (hi : i < 255) (x y : Byte) :
    gfMul (ALOG i) (gfAdd x y) = gfAdd (gfMul (ALOG i) x) (gfMul (ALOG i) y) := by
  induction i with
  | zero => simp only [ALOG_zero, gfMul_one_left]
  | succ i ih => simp only [ALOG_succ hi, gfMul_assoc, ih (by omega), gfMul_two_gfAdd]

theorem gfMul_gfAdd (a x y : Byte) : gfMul a (gfAdd x y) = gfAdd (gfMul a x) (gfMul a y) := by
  by_cases ha : a = 0
  · simp [ha]
  · have hpow := gfMul_ALOG_gfAdd (LOG_lt a ha) x y
    rwa [ALOG_LOG a ha] at hpow

theorem gfMul_xorOver (a : Byte) (n : Nat) (f : Nat → Byte) :
    gfMul a (xorOver n f) = xorOver n fun i => gfMul a (f i) := by
  induction n with
  | zero => exact gfMul_zero_right a
  | succ n ih => rw [xorOver, xorOver, gfMul_gfAdd, ih]

/-! ### Multiplication without a table (R121, R129) -/

/-- The doubling of the log table's walk is multiplication by 2. -/
theorem logDouble_eq_gfMul_two : ∀ x : Byte, BitVec.ofNat 8 (logDouble Config.POLY x.toNat) = gfMul 2 x := by
  decide

/-- Doubling commutes with multiplication. -/
theorem doubled_eq_gfMul (a : Byte) (i : Nat) : doubled a i = gfMul a (doubled 1 i) := by
  induction i with
  | zero => exact (gfMul_one_right a).symm
  | succ i ih =>
    simp only [doubled, logDouble_eq_gfMul_two]
    rw [ih, ← gfMul_assoc, gfMul_comm 2 a, gfMul_assoc]

/-- The doubled ones are the eight powers of two below the polynomial, so they spell every byte. -/
theorem shiftXorMul_one_left : ∀ b : Byte, shiftXorMul 1 b = b := by
  decide

theorem gfMul_eq_shiftXorMul (a b : Byte) : gfMul a b = shiftXorMul a b := by
  have hterm : ∀ i, gfMul a (if b.getLsbD i then doubled 1 i else 0) = if b.getLsbD i then doubled a i else 0 := by
    intro i
    split
    · exact (doubled_eq_gfMul a i).symm
    · exact gfMul_zero_right a
  calc gfMul a b = gfMul a (shiftXorMul 1 b) := by rw [shiftXorMul_one_left]
    _ = shiftXorMul a b := by simp only [shiftXorMul, gfMul_xorOver, hterm]

/-! ### Exponentiation (R131) -/

theorem gfExp_one_right (a : Byte) : gfExp a 1 = a := by
  by_cases ha : a = 0
  · rw [ha, gfExp_zero_left (by decide)]
  · rw [gfExp_of_ne_zero (by decide) ha, Nat.mul_one, Nat.mod_eq_of_lt (LOG_lt a ha), ALOG_LOG a ha]

theorem gfExp_succ (a : Byte) (n : Nat) : gfExp a (n + 1) = gfMul (gfExp a n) a := by
  by_cases hn : n = 0
  · rw [hn, gfExp_zero_right, gfExp_one_right, gfMul_one_left]
  by_cases ha : a = 0
  · rw [ha, gfExp_zero_left (Nat.succ_ne_zero n)]
    exact (gfMul_zero_right _).symm
  · have hexp : LOG a * n % 255 < 255 := Nat.mod_lt _ (by decide)
    have hsum : (LOG a * n % 255 + LOG a) % 255 = LOG a * (n + 1) % 255 := by
      rw [Nat.mul_succ, Nat.mod_add_mod]
    rw [gfExp_of_ne_zero (Nat.succ_ne_zero n) ha, gfExp_of_ne_zero hn ha, gfMul_eq_ALOG_mod (ALOG_ne_zero (by omega)) ha,
      LOG_ALOG hexp, hsum]

/-! ### The obligations -/

/-- Settles O32, from the laws above and the corner cases of the field functions. -/
theorem fieldLawsOfTwoOperands : Obligations.FieldLawsOfTwoOperands := by
  intro a b
  have hquot : ∀ x y : Byte, y ≠ 0 → ∃ v, gfDiv x y = .ok v ∧ gfMul v y = x := fun x y hy =>
    ⟨gfQuot x y, gfDiv_of_ne_zero x hy, gfMul_gfQuot x hy⟩
  refine ⟨gfAdd_comm a b, gfMul_comm a b, gfMul_one_left a, gfAdd_self a, gfExp_zero_right a,
    fun n hn => gfExp_zero_left hn.ne', gfDiv_zero_right a, fun ha => ⟨?reciprocal, ?self⟩, hquot a b⟩
  case reciprocal =>
    obtain ⟨v, hv, hmul⟩ := hquot 1 a ha
    exact ⟨v, hv, (gfMul_comm a v).trans hmul⟩
  case self => rw [gfDiv_of_ne_zero a ha, gfQuot_self ha]

/-- Settles O33. -/
theorem fieldLawsOfThreeOperands : Obligations.FieldLawsOfThreeOperands :=
  fun a b c => ⟨gfMul_assoc a b c, gfMul_gfAdd a b c⟩

/-- Settles O34, by induction on the exponent. -/
theorem exponentiationIsRepeatedMultiplication : Obligations.ExponentiationIsRepeatedMultiplication := by
  intro a n
  induction n with
  | zero => exact gfExp_zero_right a
  | succ n ih => rw [gfExp_succ, ih, mulPower]

/-- Settles O35: by linearity it is enough that the eight doubled ones spell every byte. -/
theorem romMultiplicationIsShiftAndXor : Obligations.RomMultiplicationIsShiftAndXor :=
  gfMul_eq_shiftXorMul

end Sys2Proof.Machine

/-! The procedures that generate the ROMs (40_field.md R121, R122) for any constant, and for which constants they complete (R7). -/

namespace Sys2Proof.Machine

/-! ### What the walk does (R121) -/

/-- The elements the walk visits from `b` on, `n` of them. -/
def walked (polynomial : Byte) (n b : Nat) : List Nat := List.iterate (logDouble polynomial) b n

theorem walked_succ (polynomial : Byte) (n b : Nat) :
    walked polynomial (n + 1) b = b :: walked polynomial n (logDouble polynomial b) := rfl

@[simp] theorem length_walked (polynomial : Byte) (n b : Nat) : (walked polynomial n b).length = n :=
  List.length_iterate _ _ _

theorem getElem_walked (polynomial : Byte) (n b : Nat) {i : Nat} (hi : i < (walked polynomial n b).length) :
    (walked polynomial n b)[i] = (logDouble polynomial)^[i] b :=
  List.getElem_iterate _ _ _ _ hi

theorem lookup_cons_eq_none {x b i : Nat} {t : LogTable} :
    List.lookup x ((b, i) :: t) = none ↔ x ≠ b ∧ List.lookup x t = none := by
  simp [List.lookup_eq_none_iff]

/-- The walk fails when it visits an element twice or one that the table has already; else it adds every element it visits with its
exponent. -/
theorem logWalk_eq (polynomial : Byte) (fuel i b : Nat) (t : LogTable) :
    logWalk polynomial fuel i b t =
      if (walked polynomial fuel b).Nodup ∧ ∀ x ∈ walked polynomial fuel b, List.lookup x t = none
      then some (((walked polynomial fuel b).zipIdx i).reverse ++ t) else none := by
  induction fuel generalizing i b t with
  | zero => simp [logWalk, walked]
  | succ fuel ih =>
    rw [logWalk, ih, walked_succ]
    cases hb : List.lookup b t with
    | some j => simp only [List.forall_mem_cons, hb, reduceCtorEq, false_and, and_false, Option.isSome_some, if_true, if_false]
    | none =>
      have hcond : ((walked polynomial fuel (logDouble polynomial b)).Nodup ∧
            ∀ x ∈ walked polynomial fuel (logDouble polynomial b), List.lookup x ((b, i) :: t) = none) ↔
          (b :: walked polynomial fuel (logDouble polynomial b)).Nodup ∧
            ∀ x ∈ b :: walked polynomial fuel (logDouble polynomial b), List.lookup x t = none := by
        simp only [lookup_cons_eq_none, List.nodup_cons, List.forall_mem_cons, hb, true_and]
        constructor
        · exact fun ⟨hnodup, h⟩ => ⟨⟨fun hmem => (h b hmem).1 rfl, hnodup⟩, fun x hx => (h x hx).2⟩
        · exact fun ⟨⟨hmem, hnodup⟩, h⟩ => ⟨hnodup, fun x hx => ⟨fun hxb => hmem (hxb ▸ hx), h x hx⟩⟩
      simp only [Option.isSome_none, Bool.false_eq_true, if_false, hcond, List.zipIdx_cons, List.reverse_cons,
        List.append_assoc, List.singleton_append]

/-- The log table generation completes exactly when the walk visits 255 different elements. -/
theorem generateLogTable_eq (polynomial : Byte) : generateLogTable polynomial =
    if (walked polynomial 255 1).Nodup then some ((walked polynomial 255 1).zipIdx).reverse else none := by
  simp [generateLogTable, logWalk_eq]

theorem logDouble_lt (polynomial : Byte) {b : Nat} (hb : b < 256) : logDouble polynomial b < 256 := by
  unfold logDouble
  split
  · exact Nat.xor_lt_two_pow (n := 8) (Nat.mod_lt _ (by decide)) polynomial.isLt
  · omega

/-! ### The tables for `POLY` (R124, R125) -/

theorem ALOG_injOn {i j : Nat} (hi : i < 255) (hj : j < 255) (h : ALOG i = ALOG j) : i = j := by
  rw [← LOG_ALOG hi, h, LOG_ALOG hj]

/-- The walk for `POLY` visits the powers of 2 in order: the first half of the antilog ROM. -/
theorem iterate_logDouble_POLY {i : Nat} (hi : i < 255) : (logDouble Config.POLY)^[i] 1 = (ALOG i).toNat := by
  induction i with
  | zero => decide
  | succ i ih =>
    have hlt : logDouble Config.POLY (ALOG i).toNat < 256 := logDouble_lt _ (ALOG i).isLt
    rw [Function.iterate_succ_apply', ih (by omega), ALOG_succ hi, ← logDouble_eq_gfMul_two, BitVec.toNat_ofNat,
      Nat.mod_eq_of_lt hlt]

theorem walked_POLY : walked Config.POLY 255 1 = (List.range 255).map fun i => (ALOG i).toNat := by
  refine List.ext_getElem (by simp) fun i hi _ => ?_
  rw [length_walked] at hi
  rw [getElem_walked, iterate_logDouble_POLY hi, List.getElem_map, List.getElem_range]

theorem nodup_walked_POLY : (walked Config.POLY 255 1).Nodup := by
  rw [walked_POLY]
  refine (List.nodup_map_iff_inj_on List.nodup_range).mpr fun i hi j hj h => ?_
  exact ALOG_injOn (List.mem_range.mp hi) (List.mem_range.mp hj) (BitVec.eq_of_toNat_eq h)

/-- The log table for `POLY`: the elements and their exponents, the last one first. -/
def polyLogTable : LogTable := (((List.range 255).map fun i => (ALOG i).toNat).zipIdx).reverse

theorem generateLogTable_POLY : generateLogTable Config.POLY = some polyLogTable := by
  rw [generateLogTable_eq, if_pos nodup_walked_POLY, walked_POLY, polyLogTable]

theorem mem_polyLogTable {x i : Nat} : (x, i) ∈ polyLogTable ↔ i < 255 ∧ x = (ALOG i).toNat := by
  rw [polyLogTable, List.mem_reverse, List.mem_zipIdx_iff_getElem?]
  by_cases h : i < 255
  · simp [h, eq_comm]
  · simp [h]

/-- A key found in a table is found with a value it has there. -/
theorem lookup_eq_some_of_unique {t : LogTable} {x i : Nat} (hmem : (x, i) ∈ t) (huniq : ∀ j, (x, j) ∈ t → j = i) :
    List.lookup x t = some i := by
  cases hlook : List.lookup x t with
  | none => simpa using List.lookup_eq_none_iff.mp hlook _ hmem
  | some j =>
    obtain ⟨l₁, l₂, rfl, -⟩ := List.lookup_eq_some_iff.mp hlook
    rw [huniq j (by simp)]

theorem lookup_polyLogTable {x : Byte} (hx : x ≠ 0) : List.lookup x.toNat polyLogTable = some (LOG x) := by
  refine lookup_eq_some_of_unique (mem_polyLogTable.mpr ⟨LOG_lt x hx, ?_⟩) fun j hj => ?_
  · rw [ALOG_LOG x hx]
  · obtain ⟨hlt, heq⟩ := mem_polyLogTable.mp hj
    rw [← LOG_ALOG hlt, ← BitVec.eq_of_toNat_eq heq]

theorem find?_polyLogTable {i : Nat} (hi : i < 255) :
    polyLogTable.find? (fun a => a.2 == i) = some ((ALOG i).toNat, i) := by
  cases hfind : polyLogTable.find? (fun a => a.2 == i) with
  | none => simpa using List.find?_eq_none.mp hfind _ (mem_polyLogTable.mpr ⟨hi, rfl⟩)
  | some a =>
    have hkey : a.2 = i := by simpa using List.find?_some hfind
    have hval := (mem_polyLogTable.mp (List.mem_of_find?_eq_some hfind)).2
    rw [← hkey, ← hval]

/-- The antilog table for `POLY`: both halves are the first half of the ROM, which repeats there (R125). -/
theorem generateExpTable_polyLogTable : generateExpTable polyLogTable = (List.range 510).map ALOG := by
  have hhalf : ((List.range 255).map fun i =>
      BitVec.ofNat 8 (((polyLogTable.find? fun a => a.2 == i).map (·.1)).getD 0)) = (List.range 255).map ALOG := by
    refine List.map_congr_left fun i hi => ?_
    rw [find?_polyLogTable (List.mem_range.mp hi)]
    exact ofNat_toNat_self (ALOG i)
  have hrepeat : (List.range 255).map (fun i => ALOG (255 + i)) = (List.range 255).map ALOG := by
    refine List.map_congr_left fun i hi => ?_
    rw [Nat.add_comm, ALOG_add_255 (List.mem_range.mp hi)]
  rw [show (510 : Nat) = 255 + 255 from rfl, List.range_add, List.map_append, List.map_map, generateExpTable, hhalf]
  exact congrArg _ hrepeat.symm

/-! ### Which constants generate a field (R7) -/

section Orbit

variable {polynomial : Byte}

theorem iterate_logDouble_lt (n : Nat) : (logDouble polynomial)^[n] 1 < 256 := by
  induction n with
  | zero => exact (by decide : 1 < 256)
  | succ n ih =>
    rw [Function.iterate_succ_apply']
    exact logDouble_lt polynomial ih

/-- The parity of a doubled element says whether it was reduced, if the constant is odd. -/
theorem logDouble_mod_two (hodd : polynomial.toNat % 2 = 1) {b : Nat} : logDouble polynomial b % 2 = 1 ↔ 256 ≤ 2 * b := by
  unfold logDouble
  split
  · rw [Nat.xor_mod_two_eq_one]
    omega
  · omega

/-- With an odd constant doubling can be undone. -/
theorem logDouble_injOn (hodd : polynomial.toNat % 2 = 1) {a b : Nat} (ha : a < 256) (hb : b < 256)
    (h : logDouble polynomial a = logDouble polynomial b) : a = b := by
  have hside : 256 ≤ 2 * a ↔ 256 ≤ 2 * b := by rw [← logDouble_mod_two hodd, h, logDouble_mod_two hodd]
  unfold logDouble at h
  by_cases hreduced : 256 ≤ 2 * a
  · rw [if_pos hreduced, if_pos (hside.mp hreduced)] at h
    have := Nat.xor_left_injective h
    omega
  · rw [if_neg hreduced, if_neg (mt hside.mpr hreduced)] at h
    omega

theorem iterate_eq_one_of_iterate_eq (hodd : polynomial.toNat % 2 = 1) {i d : Nat}
    (h : (logDouble polynomial)^[i] 1 = (logDouble polynomial)^[i + d] 1) : (logDouble polynomial)^[d] 1 = 1 := by
  induction i with
  | zero => simpa using h.symm
  | succ i ih =>
    rw [Nat.succ_add, Function.iterate_succ_apply', Function.iterate_succ_apply'] at h
    exact ih (logDouble_injOn hodd (iterate_logDouble_lt i) (iterate_logDouble_lt _) h)

/-- With an odd constant the walk visits 255 different elements exactly when it does not come back to 1 before. -/
theorem nodup_walked_iff_of_odd (hodd : polynomial.toNat % 2 = 1) :
    (walked polynomial 255 1).Nodup ↔ ∀ d, 0 < d → d < 255 → (logDouble polynomial)^[d] 1 ≠ 1 := by
  rw [List.Nodup, List.pairwise_iff_getElem]
  simp only [getElem_walked, length_walked]
  constructor
  · exact fun h d hd hlt => (h 0 d (by decide) hlt hd).symm
  · intro h i j _ hj hij heq
    obtain ⟨d, rfl⟩ := Nat.exists_eq_add_of_lt hij
    exact h (d + 1) (Nat.succ_pos d) (by omega) (iterate_eq_one_of_iterate_eq hodd (by simpa only [Nat.add_assoc] using heq))

/-- With an even constant every element after the first is even, and there are not enough even ones. -/
theorem not_nodup_walked_of_even (heven : polynomial.toNat % 2 = 0) : ¬(walked polynomial 255 1).Nodup := by
  intro hnodup
  rw [walked_succ, List.nodup_cons] at hnodup
  have hsub : walked polynomial 254 (logDouble polynomial 1) ⊆ (List.range 128).map (2 * ·) := by
    intro x hx
    obtain ⟨i, hi, rfl⟩ := List.getElem_of_mem hx
    have hlt : (logDouble polynomial)^[i + 1] 1 < 256 := iterate_logDouble_lt (i + 1)
    have hpar : (logDouble polynomial)^[i + 1] 1 % 2 = 0 := by
      rw [Function.iterate_succ_apply']
      generalize (logDouble polynomial)^[i] 1 = b
      unfold logDouble
      split
      · have := Nat.xor_mod_two_eq_one (a := 2 * b % 256) (b := polynomial.toNat)
        omega
      · omega
    rw [getElem_walked, ← Function.iterate_succ_apply, Nat.succ_eq_add_one]
    exact List.mem_map.mpr ⟨(logDouble polynomial)^[i + 1] 1 / 2, List.mem_range.mpr (by omega), by omega⟩
  have hle := (hnodup.2.subperm hsub).length_le
  simp at hle

end Orbit

/-- Whether the walk from `b` comes to 1 within `fuel` doublings. -/
def comesToOne (polynomial : Byte) : (fuel b : Nat) → Bool
  | 0, _ => false
  | fuel + 1, b => logDouble polynomial b == 1 || comesToOne polynomial fuel (logDouble polynomial b)

theorem comesToOne_iff (polynomial : Byte) (fuel b : Nat) :
    comesToOne polynomial fuel b = true ↔ ∃ d, d < fuel ∧ (logDouble polynomial)^[d + 1] b = 1 := by
  induction fuel generalizing b with
  | zero => simp [comesToOne]
  | succ fuel ih =>
    rw [comesToOne, Bool.or_eq_true, ih, beq_iff_eq]
    constructor
    · rintro (h | ⟨d, hd, h⟩)
      · exact ⟨0, Nat.succ_pos _, h⟩
      · exact ⟨d + 1, Nat.succ_lt_succ hd, h⟩
    · rintro ⟨d | d, hd, h⟩
      · exact .inl h
      · exact .inr ⟨d, Nat.lt_of_succ_lt_succ hd, h⟩

theorem generateLogTable_isSome_iff (polynomial : Byte) : (generateLogTable polynomial).isSome = true ↔
    polynomial.toNat % 2 = 1 ∧ comesToOne polynomial 254 1 = false := by
  have hsome : (generateLogTable polynomial).isSome = true ↔ (walked polynomial 255 1).Nodup := by
    rw [generateLogTable_eq]
    split <;> simp [*]
  rw [hsome]
  rcases Nat.mod_two_eq_zero_or_one polynomial.toNat with heven | hodd
  · simp [not_nodup_walked_of_even heven, heven]
  · rw [nodup_walked_iff_of_odd hodd, ← Bool.not_eq_true, comesToOne_iff]
    constructor
    · rintro h
      exact ⟨hodd, fun ⟨d, hd, heq⟩ => h (d + 1) (Nat.succ_pos d) (by omega) heq⟩
    · rintro ⟨-, h⟩ d hpos hlt heq
      obtain ⟨e, rfl⟩ := Nat.exists_eq_add_of_le' hpos
      exact h ⟨e, by omega, heq⟩

/-- The 16 constants of R7 are odd and their walks do not come back to 1 in 254 doublings; the other constants fail one of the two. -/
theorem sixteen_constants : ∀ polynomial : Byte, (polynomial.toNat % 2 = 1 ∧ comesToOne polynomial 254 1 = false) ↔
    polynomial.toNat ∈ [29, 43, 45, 77, 95, 99, 101, 105, 113, 135, 141, 169, 195, 207, 231, 245] := by
  decide +kernel

/-! ### The obligations -/

/-- Settles O29: the walk for `POLY` is the first half of the antilog ROM. -/
theorem romsHoldTheGeneratedTables : Obligations.RomsHoldTheGeneratedTables :=
  ⟨polyLogTable, generateLogTable_POLY, fun _ => lookup_polyLogTable, generateExpTable_polyLogTable⟩

/-- Settles O31: the walk is 255 long exactly for the odd constants under which it does not come back to 1 before. -/
theorem sixteenConstantsGenerateAField : Obligations.SixteenConstantsGenerateAField :=
  fun p => (generateLogTable_isSome_iff p).trans (sixteen_constants p)

end Sys2Proof.Machine

/-! The matrix unit, part 2: augmenting, extracting, exchanging rows, inversion (41_matrix.md R175 to R179), and CGEN (42_codec.md R209):
each command case by case, and the obligations on them. -/

namespace Sys2Proof.Machine

/-! ### The commands case by case: which operands they accept -/

/-- MAUG of banks with different row counts (R175). -/
theorem maug_endsInError_shape {a b : Bank} {s : State} (h : (s.bank a).rows ≠ (s.bank b).rows) (d : Bank) :
    endsInError (.maug d a b) .dimensionMismatch s :=
  if_pos h

/-- MAUG of banks that fit each other but no bank (R175, R255). -/
theorem maug_endsInError_capacity {a b : Bank} {s : State} (hrows : (s.bank a).rows = (s.bank b).rows)
    (hcols : 512 < (s.bank a).cols + (s.bank b).cols) (d : Bank) : endsInError (.maug d a b) .capacity s :=
  (if_neg (not_not.mpr hrows)).trans (if_pos hcols)

/-- MAUG of banks that fit (R175). -/
theorem exec_maug_of_le {a b : Bank} {s : State} (hrows : (s.bank a).rows = (s.bank b).rows)
    (hcols : (s.bank a).cols + (s.bank b).cols ≤ 512) (d : Bank) :
    exec (.maug d a b) s = succeed (s.setBank d ((s.bank a).augment (s.bank b))) :=
  (if_neg (not_not.mpr hrows)).trans (if_neg hcols.not_gt)

/-- MSUB of a range inside the matrix (R176). -/
theorem exec_msub_of_le {a : Bank} {rmin cmin rmax cmax : Nat} {s : State}
    (h : rmin ≤ rmax ∧ rmax ≤ (s.bank a).rows ∧ cmin ≤ cmax ∧ cmax ≤ (s.bank a).cols) (d : Bank) :
    exec (.msub d a rmin cmin rmax cmax) s = succeed (s.setBank d ((s.bank a).sub rmin cmin rmax cmax)) :=
  if_pos h

/-- MSUB of any other range (R176). -/
theorem msub_endsInError {a : Bank} {rmin cmin rmax cmax : Nat} {s : State}
    (h : rmax < rmin ∨ (s.bank a).rows < rmax ∨ cmax < cmin ∨ (s.bank a).cols < cmax) (d : Bank) :
    endsInError (.msub d a rmin cmin rmax cmax) .indexOutOfRange s :=
  if_neg (by omega)

/-- MROW of a row inside the matrix (R177). -/
theorem exec_mrow_of_lt {a : Bank} {r : Nat} {s : State} (h : r < (s.bank a).rows) (d : Bank) :
    exec (.mrow d a r) s = succeed (s.setBank d (Mat.build 1 (s.bank a).cols fun _ c => (s.bank a).get r c)) :=
  if_neg h.not_ge

/-- MROW of a row outside it (R177). -/
theorem mrow_endsInError {a : Bank} {r : Nat} {s : State} (h : (s.bank a).rows ≤ r) (d : Bank) :
    endsInError (.mrow d a r) .indexOutOfRange s :=
  if_pos h

/-- MSWAP of two rows inside the matrix (R178). -/
theorem exec_mswap_of_lt {d : Bank} {r1 r2 : Nat} {s : State} (h1 : r1 < (s.bank d).rows) (h2 : r2 < (s.bank d).rows) :
    exec (.mswap d r1 r2) s = succeed (s.setBank d ((s.bank d).swapRows r1 r2)) :=
  if_neg (not_or.mpr ⟨h1.not_ge, h2.not_ge⟩)

/-- MSWAP with a row outside it (R178). -/
theorem mswap_endsInError {d : Bank} {r1 r2 : Nat} {s : State} (h : (s.bank d).rows ≤ r1 ∨ (s.bank d).rows ≤ r2) :
    endsInError (.mswap d r1 r2) .indexOutOfRange s :=
  if_pos h

/-- MINV of a matrix that is not square (R179). -/
theorem minv_endsInError_shape {a : Bank} {s : State} (h : (s.bank a).rows ≠ (s.bank a).cols) (d : Bank) :
    endsInError (.minv d a) .notSquare s :=
  if_pos h

/-- MINV of a square matrix whose elimination fails (R179). -/
theorem minv_endsInError_singular {a : Bank} {s : State} (hsquare : (s.bank a).rows = (s.bank a).cols)
    (hinv : matInv (s.bank a) = none) (d : Bank) : endsInError (.minv d a) .singular s := by
  simp only [endsInError, exec, execMinv, hsquare, ne_eq, not_true_eq_false, if_false, hinv]
  rfl

/-- MINV of a square matrix whose elimination succeeds (R179). -/
theorem exec_minv_of_eq {a : Bank} {s : State} {X : Mat} (hsquare : (s.bank a).rows = (s.bank a).cols)
    (hinv : matInv (s.bank a) = some X) (d : Bank) : exec (.minv d a) s = succeed (s.setBank d X) := by
  simp only [exec, execMinv, hsquare, ne_eq, not_true_eq_false, if_false, hinv]

/-- CGEN with a codec (R209). -/
theorem exec_cgen_of_gvalid {s : State} (h : s.gvalid = true) (d : Bank) :
    exec (.cgen d) s = succeed (s.setBank d (Mat.build s.N s.K s.g.get)) :=
  if_neg (by rw [h]; decide)

/-- CGEN without one (R209). -/
theorem cgen_endsInError {s : State} (h : s.gvalid = false) (d : Bank) : endsInError (.cgen d) .noCodec s :=
  if_pos h

/-! ### Rows exchanged (R178) -/

theorem isMatrix_swapRows {A : Mat} (h : A.wf = true) {r1 r2 : Nat} (h1 : r1 < A.rows) (h2 : r2 < A.rows) :
    isMatrix (A.swapRows r1 r2) A.rows A.cols
      fun r c => if r = r1 then A.get r2 c else if r = r2 then A.get r1 c else A.get r c := by
  refine ⟨Mat.wf_swapRows h h1 h2, rfl, rfl, fun r c _ _ => ?cell⟩
  case cell =>
    simp only [Mat.get_swapRows h h1 h2]
    by_cases hr1 : r = r1
    · by_cases hr2 : r = r2
      · rw [if_pos hr2, if_pos hr1, ← hr1, ← hr2]
      · rw [if_neg hr2, if_pos hr1, if_pos hr1]
    · rw [if_neg hr1, if_neg hr1]

theorem Mat.swapRows_swapRows {A : Mat} (h : A.wf = true) {r1 r2 : Nat} (h1 : r1 < A.rows) (h2 : r2 < A.rows) :
    (A.swapRows r1 r2).swapRows r1 r2 = A := by
  have hwf := Mat.wf_swapRows h h1 h2
  refine Mat.ext_get (Mat.wf_swapRows hwf h1 h2) h rfl rfl fun r c _ _ => ?_
  rw [Mat.get_swapRows hwf h1 h2, Mat.get_swapRows h h1 h2, Mat.get_swapRows h h1 h2, Mat.get_swapRows h h1 h2]
  by_cases hr2 : r = r2
  · subst hr2
    by_cases hr1 : r1 = r <;> simp [hr1]
  · by_cases hr1 : r = r1
    · subst hr1
      simp [hr2]
    · simp [hr1, hr2]

/-! ### The obligations -/

/-- Settles O44: the checks decide in R255's order, and the concatenation is a built matrix. -/
theorem maugConcatenates : Obligations.MaugConcatenates :=
  fun d a b _ => ⟨fmtR_fields _ d a b, fun hrows => maug_endsInError_shape hrows d,
    fun hrows hcols => maug_endsInError_capacity hrows hcols d,
    fun hrows hcols => next_of_succeed_setMatrix (exec_maug_of_le hrows hcols d) (isMatrix_build _ _ _)⟩

/-- Settles O45: the bounds check decides, and the block and the row are built matrices. -/
theorem msubAndMrowExtract : Obligations.MsubAndMrowExtract := by
  refine ⟨fun d a rmin cmin rmax cmax s => ⟨?blockWord, fun hr hrmax hc hcmax => ?block, fun h => msub_endsInError h d⟩,
    fun d a r s => ⟨?rowWord, fun h => ?row, fun h => mrow_endsInError h d⟩⟩
  case blockWord => rw [encode, selBits_eq_ofNat, selBits_eq_ofNat]
  case block => exact next_of_succeed_setMatrix (exec_msub_of_le ⟨hr, hrmax, hc, hcmax⟩ d) (isMatrix_build _ _ _)
  case rowWord => rw [encode, selBits_eq_ofNat, selBits_eq_ofNat]
  case row => exact next_of_succeed_setMatrix (exec_mrow_of_lt h d) (isMatrix_build _ _ _)

/-- Settles O46: the same command again exchanges the same two rows of the matrix the first one left. -/
theorem mswapExchangesTwoRows : Obligations.MswapExchangesTwoRows := by
  intro d r1 r2 s hwf
  refine ⟨fmtD2_fields _ d r1 r2, fun h1 h2 => ?swap, mswap_endsInError⟩
  case swap =>
    obtain ⟨t, hexec, hbank, hframe⟩ := next_of_succeed_setBank (exec_mswap_of_lt h1 h2)
    have hagain := exec_mswap_of_lt (s := t) (d := d) (r1 := r1) (r2 := r2) (by rw [hbank]; exact h1) (by rw [hbank]; exact h2)
    obtain ⟨u, hexec', hbank', -⟩ := next_of_succeed_setBank hagain
    refine ⟨t, hexec, hbank ▸ isMatrix_swapRows hwf h1 h2, hframe, u, hexec', ?_⟩
    rw [hbank', hbank, Mat.swapRows_swapRows hwf h1 h2]

/-- Settles O47: the checks decide in R255's order, and an inverse has the shape of what it inverts. -/
theorem minvInstallsTheInverse : Obligations.MinvInstallsTheInverse := by
  refine fun d a s => ⟨fun h => minv_endsInError_shape h d, fun hsquare hinv => minv_endsInError_singular hsquare hinv d,
    fun X hsquare hinv => ?inverse⟩
  case inverse =>
    obtain ⟨t, hexec, hbank, hframe⟩ := next_of_succeed_setBank (exec_minv_of_eq hsquare hinv d)
    obtain ⟨hwf, hrows, hcols⟩ := matInv_shape hinv
    have hmatrix : isMatrix X (s.bank a).rows (s.bank a).rows X.get := ⟨hwf, hrows, hcols, fun _ _ _ _ => rfl⟩
    exact ⟨t, hexec, hbank ▸ hmatrix, hbank, hframe⟩

/-- Settles O58: the copy is a built matrix. -/
theorem cgenCopiesTheGeneratorMatrix : Obligations.CgenCopiesTheGeneratorMatrix := by
  refine fun d s => ⟨?word, fun h => ?copy, fun h => cgen_endsInError h d, rfl⟩
  case word => rw [encode, selBits_eq_ofNat]
  case copy => exact next_of_succeed_setMatrix (exec_cgen_of_gvalid h d) (isMatrix_build _ _ _)

end Sys2Proof.Machine

/-! What every command and every step can do, said once (R8, R10, R15, R70 to R76, R252), and what follows for all of them: the
errors (R251), the frame (R21, R27, R30 to R32, R35), the invariant, and that an obedient host never stops the machine (R300). -/

namespace Sys2Proof.Machine

/-! ### The codec unit case by case (42_codec.md R201, R206 to R208) -/

/-- CINIT of bad counts (R201). -/
theorem cinit_endsInError_argument {k m : Nat} (h : k = 0 ∨ m = 0 ∨ 256 < k + m) (s : State) :
    endsInError (.cinit k m) .invalidArgument s :=
  if_pos h

/-- CINIT within the bounds, if there were no generator matrix (R201). -/
theorem cinit_endsInError_singular {k m : Nat} (h : 1 ≤ k ∧ 1 ≤ m ∧ k + m ≤ 256) (hG : generator k m = none) (s : State) :
    endsInError (.cinit k m) .singular s := by
  have hbounds : ¬(k = 0 ∨ m = 0 ∨ 256 < k + m) := by omega
  simp only [endsInError, exec, execCinit, hbounds, if_false, hG]
  rfl

/-- CINIT within the bounds (R201). -/
theorem exec_cinit_of_generator {k m : Nat} (h : 1 ≤ k ∧ 1 ≤ m ∧ k + m ≤ 256) {G : Mat} (hG : generator k m = some G)
    (s : State) :
    exec (.cinit k m) s = succeed { s with gvalid := true, k := BitVec.ofNat 9 k, m := BitVec.ofNat 9 m, g := G } := by
  have hbounds : ¬(k = 0 ∨ m = 0 ∨ 256 < k + m) := by omega
  simp only [exec, execCinit, hbounds, if_false, hG]

section ValidShardSet

variable {off len : Nat} {s : State} (hvalid : validShardSet off len s)

include hvalid

/-- CENC of a valid shard set (R206). -/
theorem exec_cenc_of_valid : exec (.cenc off len) s =
    succeed { s with shard := writeShards s.K (fun _ => true) (parity s.g s.K) off len s.M s.shard } :=
  withValid_valid hvalid _

/-- CVFY of a valid shard set (R207). -/
theorem exec_cvfy_of_valid : exec (.cvfy off len) s = succeed { s with vfy := parityOk off len s } :=
  withValid_valid hvalid _

/-- CDEC with nothing absent (R208). -/
theorem exec_cdec_of_all_present (h : (presentShards s s.N).length = s.N) : exec (.cdec off len) s = succeed s :=
  (withValid_valid hvalid _).trans (if_pos h)

/-- CDEC with too few present (R208). -/
theorem cdec_endsInError_insufficient (h : (presentShards s s.N).length < s.K) :
    endsInError (.cdec off len) .insufficientShards s := by
  have hne : (presentShards s s.N).length ≠ s.N := by
    unfold State.N at h ⊢
    omega
  exact (withValid_valid hvalid _).trans ((if_neg hne).trans (if_pos h))

/-- CDEC with enough present and some absent goes on to the inversion (R208). -/
theorem exec_cdec_of_some_absent (habsent : (presentShards s s.N).length ≠ s.N)
    (hcount : s.K ≤ (presentShards s s.N).length) : exec (.cdec off len) s =
      match matInv (selectedRows s.g s.K ((presentShards s s.N).take s.K)) with
      | none => raise .singular s
      | some D => succeed { s with shard := reconstruct D ((presentShards s s.N).take s.K) off len s } :=
  (withValid_valid hvalid _).trans ((if_neg habsent).trans (if_neg hcount.not_gt))

end ValidShardSet

/-! ### Everything a command can do -/

theorem bankOk_iff (A : Mat) : bankOk A = true ↔ A.wf = true ∧ A.rows ≤ 256 ∧ A.cols ≤ 512 := by
  simp [bankOk, Mat.fits]

/-- A built matrix within the bounds can stand in a bank (R25, R26). -/
theorem bankOk_build {R C : Nat} (hR : R ≤ 256) (hC : C ≤ 512) (F : Nat → Nat → Byte) : bankOk (Mat.build R C F) = true :=
  (bankOk_iff _).mpr ⟨Mat.wf_build R C F, hR, hC⟩

/-- What the invariant says of one bank. -/
theorem Inv.bank {s : State} (h : Inv s) (b : Bank) : (s.bank b).wf = true ∧ (s.bank b).rows ≤ 256 ∧ (s.bank b).cols ≤ 512 :=
  (bankOk_iff _).mp (h.banks b)

/-- What it means that the registers and the store of a codec agree (R31, R32). -/
theorem codecOk_iff {s : State} (hg : s.gvalid = true) : codecOk s = true ↔
    1 ≤ s.K ∧ 1 ≤ s.M ∧ s.N ≤ 256 ∧ s.g.wf = true ∧ s.g.rows = s.N ∧ s.g.cols = s.K := by
  simp [codecOk, hg, and_assoc]

/-- With a codec the counts are within R31's bounds. -/
theorem Inv.counts {s : State} (h : Inv s) (hg : s.gvalid = true) : 1 ≤ s.K ∧ 1 ≤ s.M ∧ s.N ≤ 256 := by
  obtain ⟨hk, hm, hn, -⟩ := (codecOk_iff hg).mp h.codec
  exact ⟨hk, hm, hn⟩

/-- A count CINIT accepts fits K and M (R31). -/
theorem toNat_count {n : Nat} (hn : n ≤ 256) : (BitVec.ofNat 9 n).toNat = n := by
  rw [BitVec.toNat_ofNat, Nat.mod_eq_of_lt (by omega)]

/-- What a command that succeeds leaves, before ERR and BUSY are set: its element register, its bank or the cells of its bank written,
a new codec, the result of a verification, or new bytes of shard memory. -/
inductive Writes (i : Instr) (s : State) : State → Prop where
  | elem {d : EReg} (hd : writesElem i = some d) (v : Byte) : Writes i s (s.setElem d v)
  | bank {d : Bank} (hd : replacesBank i = some d) {A : Mat} (hA : Inv s → bankOk A = true) : Writes i s (s.setBank d A)
  | cells {d : Bank} (hd : changesCells i = some d) {A : Mat} (hrows : A.rows = (s.bank d).rows)
      (hcols : A.cols = (s.bank d).cols) (hwf : (s.bank d).wf = true → A.wf = true) : Writes i s (s.setBank d A)
  | codec {k m : Nat} (hi : i = .cinit k m) (hbounds : 1 ≤ k ∧ 1 ≤ m ∧ k + m ≤ 256) {G : Mat} (hG : generator k m = some G) :
      Writes i s { s with gvalid := true, k := BitVec.ofNat 9 k, m := BitVec.ofNat 9 m, g := G }
  | verify {off len : Nat} (hi : i = .cvfy off len) (v : Bool) : Writes i s { s with vfy := v }
  | shards {off len : Nat} (hi : i = .cenc off len ∨ i = .cdec off len) {mem : Memory}
      (hmem : Memory.wf s.shard = true → Memory.wf mem = true) : Writes i s { s with shard := mem }

/-- The outcomes of a command: an error of R251's table, a success, or the one fault, which needs a codec no run reaches. -/
inductive Does (i : Instr) (s : State) : Result → Prop where
  | error {x : Error} (hx : x ∈ mayRaise i) : Does i s (raise x s)
  | success {u : State} (hu : Writes i s u) : Does i s (succeed u)
  | noShard (hg : s.gvalid = true) (hn : 256 < s.N) : Does i s (.fault .noSuchShard)

theorem Does.of_endsInError {i : Instr} {x : Error} {s : State} (h : endsInError i x s) (hx : x ∈ mayRaise i) :
    Does i s (exec i s) := by
  have heq : exec i s = raise x s := h
  exact heq ▸ .error hx

theorem Does.of_eq {i : Instr} {s : State} {r : Result} (h : exec i s = r) (hr : Does i s r) : Does i s (exec i s) :=
  h ▸ hr

/-- The shared precondition adds its two errors and the fault to what the rest of the command does (R204). -/
theorem Does.withValid {i : Instr} {off len : Nat} {s : State} {body : Result} (hnoCodec : .noCodec ∈ mayRaise i)
    (hinvalid : .invalidArgument ∈ mayRaise i) (h : validShardSet off len s → Does i s body) :
    Does i s (Machine.withValid off len s body) := by
  rcases withValid_cases off len s body with ⟨-, e⟩ | ⟨hg, hn, e⟩ | ⟨-, -, -, e⟩ | ⟨hvalid, e⟩ <;> rw [e]
  · exact .error hnoCodec
  · exact .noShard hg hn
  · exact .error hinvalid
  · exact h hvalid

/-- What steps 5 and 6 of CDEC make of shard memory: canonical, the absent data bytes in range decoded from the selected shards, the
absent parity bytes in range `PAR` of the data shards as they are then, every other byte as before (R208). -/
structure Reconstructed (D : Mat) (sel : List Nat) (off len : Nat) (s : State) (mem : Memory) : Prop where
  wf : Memory.wf mem = true
  data : ∀ i p, i < s.K → s.presentAt i = false → off ≤ p → p < off + len → memRead mem i p = decodedByte D s.K sel s.shard i p
  parity : ∀ i p, i < s.M → s.presentAt (s.K + i) = false → off ≤ p → p < off + len →
    memRead mem (s.K + i) p = parity s.g s.K mem i p
  other : ∀ x p, p < 65536 → ¬((x < s.N ∧ s.presentAt x = false) ∧ off ≤ p ∧ p < off + len) → memRead mem x p = memRead s.shard x p

theorem reconstruct_spec {off len : Nat} {s : State} (hvalid : validShardSet off len s) (hwf : Memory.wf s.shard = true)
    (hcount : s.K ≤ (presentShards s s.N).length) (D : Mat) :
    Reconstructed D ((presentShards s s.N).take s.K) off len s (reconstruct D ((presentShards s s.N).take s.K) off len s) := by
  have hn : s.K + s.M ≤ 256 := hvalid.2.1
  have hrange := hvalid.range_le
  have hsel : ∀ c, c < s.K → ¬(((presentShards s s.N).take s.K).getD c 0 < s.K ∧
      (!s.presentAt (((presentShards s s.N).take s.K).getD c 0)) = true) := fun c hc => by
    rw [(selected_mem hcount hc).2]
    exact fun h => absurd h.2 (by decide)
  obtain ⟨hwfData, hdata⟩ := dataWrites_spec (D := D) (which := fun i => !s.presentAt i) hwf (by omega) hrange hsel
  obtain ⟨hwfAll, hall⟩ := parityWrites_spec (g := s.g) (which := fun i => !s.presentAt (s.K + i)) hwfData hn hrange
  have hbelow : ∀ x p, x < s.K → p < 65536 → memRead (reconstruct D ((presentShards s s.N).take s.K) off len s) x p =
      memRead (writeShards 0 (fun i => !s.presentAt i) (decodedByte D s.K ((presentShards s s.N).take s.K)) off len s.K
        s.shard) x p :=
    fun x p hx hp => (hall x p hp).trans (if_neg fun h => hx.not_ge h.1)
  refine ⟨hwfAll, fun i p hi habsent hlo hhi => ?data, fun i p hi habsent hlo hhi => ?parity, fun x p hp houtside => ?other⟩
  case data =>
    rw [hbelow i p hi (by omega), hdata i p (by omega), if_pos ⟨hi, by simp [habsent], hlo, hhi⟩]
  case parity =>
    refine (hall (s.K + i) p (by omega)).trans ?_
    rw [Nat.add_sub_cancel_left, if_pos ⟨by omega, by omega, by simp [habsent], hlo, hhi⟩]
    exact parity_congr fun c hc => (hbelow c p hc (by omega)).symm
  case other =>
    by_cases hx : x < s.K
    · rw [hbelow x p hx hp, hdata x p hp, if_neg]
      rintro ⟨-, habsent, hin⟩
      exact houtside ⟨⟨Nat.lt_add_right _ hx, by simpa using habsent⟩, hin⟩
    · refine (hall x p hp).trans ?_
      rw [hdata x p hp, if_neg, if_neg fun h => hx h.1]
      rintro ⟨hle, hlt, habsent, hin⟩
      rw [Nat.add_sub_of_le hle] at habsent
      exact houtside ⟨⟨hlt, by simpa using habsent⟩, hin⟩

theorem exec_does (i : Instr) (s : State) : Does i s (exec i s) := by
  cases i with
  | eli ed imm => exact .success (.elem rfl _)
  | gfadd ed ea eb => exact .success (.elem rfl _)
  | gfsub ed ea eb => exact .success (.elem rfl _)
  | gfmul ed ea eb => exact .success (.elem rfl _)
  | gfdiv ed ea eb =>
    by_cases hb : s.elem eb = 0
    · exact .of_eq (exec_gfdiv_of_zero ed ea hb) (.error (by simp [mayRaise]))
    · exact .of_eq (exec_gfdiv_of_ne_zero ed ea hb) (.success (.elem rfl _))
  | gfexp ed ea n => exact .success (.elem rfl _)
  | mzero bd rows cols =>
    by_cases h : 256 < rows ∨ 512 < cols
    · exact .of_endsInError (mzero_endsInError h bd s) (by simp [mayRaise])
    · have hle : rows ≤ 256 ∧ cols ≤ 512 := by omega
      exact .of_eq (exec_mzero_of_le hle.1 hle.2 bd s) (.success (.bank rfl fun _ => bankOk_build hle.1 hle.2 _))
  | mident bd n =>
    by_cases h : 256 < n
    · exact .of_endsInError (mident_endsInError h bd s) (by simp [mayRaise])
    · exact .of_eq (exec_mident_of_le (by omega) bd s) (.success (.bank rfl fun _ => bankOk_build (by omega) (by omega) _))
  | mget ed ba r c =>
    by_cases h : (s.bank ba).rows ≤ r ∨ (s.bank ba).cols ≤ c
    · exact .of_endsInError (mget_endsInError h ed) (by simp [mayRaise])
    · exact .of_eq (exec_mget_of_lt (by omega) (by omega) ed) (.success (.elem rfl _))
  | mset bd r c ea =>
    by_cases h : (s.bank bd).rows ≤ r ∨ (s.bank bd).cols ≤ c
    · exact .of_endsInError (mset_endsInError h ea) (by simp [mayRaise])
    · have hr : r < (s.bank bd).rows := by omega
      exact .of_eq (exec_mset_of_lt hr (by omega) ea) (.success (.cells rfl rfl rfl fun hwf => Mat.wf_setCell hwf hr _ _))
  | mmul bd ba bb =>
    by_cases h : (s.bank ba).cols = (s.bank bb).rows
    · exact .of_eq (exec_mmul_of_eq h bd) (.success (.bank rfl fun hinv => bankOk_build (hinv.bank ba).2.1 (hinv.bank bb).2.2 _))
    · exact .of_endsInError (mmul_endsInError h bd) (by simp [mayRaise])
  | maug bd ba bb =>
    by_cases hrows : (s.bank ba).rows = (s.bank bb).rows
    · by_cases hcols : 512 < (s.bank ba).cols + (s.bank bb).cols
      · exact .of_endsInError (maug_endsInError_capacity hrows hcols bd) (by simp [mayRaise])
      · have hle := Nat.not_lt.mp hcols
        exact .of_eq (exec_maug_of_le hrows hle bd) (.success (.bank rfl fun hinv => bankOk_build (hinv.bank ba).2.1 hle _))
    · exact .of_endsInError (maug_endsInError_shape hrows bd) (by simp [mayRaise])
  | msub bd ba rmin cmin rmax cmax =>
    by_cases h : rmin ≤ rmax ∧ rmax ≤ (s.bank ba).rows ∧ cmin ≤ cmax ∧ cmax ≤ (s.bank ba).cols
    · refine .of_eq (exec_msub_of_le h bd) (.success (.bank rfl fun hinv => ?_))
      obtain ⟨-, hrows, hcols⟩ := hinv.bank ba
      exact bankOk_build (by omega) (by omega) _
    · exact .of_endsInError (msub_endsInError (by omega) bd) (by simp [mayRaise])
  | mrow bd ba r =>
    by_cases h : (s.bank ba).rows ≤ r
    · exact .of_endsInError (mrow_endsInError h bd) (by simp [mayRaise])
    · exact .of_eq (exec_mrow_of_lt (by omega) bd) (.success (.bank rfl fun hinv => bankOk_build (by decide) (hinv.bank ba).2.2 _))
  | mswap bd r1 r2 =>
    by_cases h : (s.bank bd).rows ≤ r1 ∨ (s.bank bd).rows ≤ r2
    · exact .of_endsInError (mswap_endsInError h) (by simp [mayRaise])
    · have hlt : r1 < (s.bank bd).rows ∧ r2 < (s.bank bd).rows := by omega
      exact .of_eq (exec_mswap_of_lt hlt.1 hlt.2) (.success (.cells rfl rfl rfl fun hwf => Mat.wf_swapRows hwf hlt.1 hlt.2))
  | minv bd ba =>
    by_cases hsquare : (s.bank ba).rows = (s.bank ba).cols
    · cases hX : matInv (s.bank ba) with
      | none => exact .of_endsInError (minv_endsInError_singular hsquare hX bd) (by simp [mayRaise])
      | some X =>
        obtain ⟨hwf, hrows, hcols⟩ := matInv_shape hX
        refine .of_eq (exec_minv_of_eq hsquare hX bd) (.success (.bank rfl fun hinv => (bankOk_iff X).mpr ⟨hwf, ?_⟩))
        have := (hinv.bank ba).2.1
        omega
    · exact .of_endsInError (minv_endsInError_shape hsquare bd) (by simp [mayRaise])
  | cinit k m =>
    by_cases h : 1 ≤ k ∧ 1 ≤ m ∧ k + m ≤ 256
    · cases hG : generator k m with
      | none => exact .of_endsInError (cinit_endsInError_singular h hG s) (by simp [mayRaise])
      | some G => exact .of_eq (exec_cinit_of_generator h hG s) (.success (.codec rfl h hG))
    · exact .of_endsInError (cinit_endsInError_argument (by omega) s) (by simp [mayRaise])
  | cenc off len =>
    refine Does.withValid (by simp [mayRaise]) (by simp [mayRaise]) fun hvalid => ?_
    exact .success (.shards (.inl rfl) fun hwf => (parityWrites_spec hwf hvalid.2.1 hvalid.range_le).1)
  | cvfy off len => exact Does.withValid (by simp [mayRaise]) (by simp [mayRaise]) fun _ => .success (.verify rfl _)
  | cdec off len =>
    refine Does.withValid (by simp [mayRaise]) (by simp [mayRaise]) fun hvalid => ?_
    simp only
    split
    case isTrue => exact .success (.shards (mem := s.shard) (.inr rfl) id)
    case isFalse =>
      split
      case isTrue => exact .error (by simp [mayRaise])
      case isFalse hcount =>
        split
        case h_1 => exact .error (by simp [mayRaise])
        case h_2 D _ => exact .success (.shards (.inr rfl) fun hwf => (reconstruct_spec hvalid hwf (by omega) D).wf)
  | cgen bd =>
    cases hg : s.gvalid with
    | false => exact .of_endsInError (cgen_endsInError hg bd) (by simp [mayRaise])
    | true =>
      refine .of_eq (exec_cgen_of_gvalid hg bd) (.success (.bank rfl fun hinv => ?_))
      have hn : s.K + s.M ≤ 256 := (hinv.counts hg).2.2
      exact bankOk_build hn (by omega) _

/-- Everything a command that answers a next state has done. -/
theorem exec_next_cases {i : Instr} {s t : State} (h : exec i s = .next t) :
    (∃ x ∈ mayRaise i, t = s.finish (some x)) ∨ ∃ u, Writes i s u ∧ t = u.finish none := by
  have hdoes := exec_does i s
  rw [h] at hdoes
  generalize hr : (Host.Outcome.next t : Result) = r at hdoes
  cases hdoes with
  | error hx => exact .inl ⟨_, hx, raise_spec hr.symm⟩
  | success hu => exact .inr ⟨_, hu, succeed_spec hr.symm⟩
  | noShard => cases hr

/-- Every command answers a next state where the invariant holds (R10). -/
theorem exec_completes (i : Instr) {s : State} (h : Inv s) : ∃ t, exec i s = .next t := by
  cases hr : exec i s with
  | next t => exact ⟨t, rfl⟩
  | fault r =>
    have hdoes := exec_does i s
    rw [hr] at hdoes
    cases hdoes with
    | noShard hg hn => exact absurd (h.counts hg).2.2 hn.not_ge
  | refused r =>
    have hdoes := exec_does i s
    rw [hr] at hdoes
    cases hdoes

end Sys2Proof.Machine

/-! What follows from the outcomes of a command and of a step, for all of them at once: the errors (R251), the frame (R21, R27, R30 to R32,
R35), the invariant (R26, R31, R32), and that an obedient host never stops the machine (R10, R76, R300). -/

namespace Sys2Proof.Machine

/-! ### What a command leaves unchanged -/

theorem exec_next_busy {i : Instr} {s t : State} (h : exec i s = .next t) : t.busy = false := by
  rcases exec_next_cases h with ⟨x, -, rfl⟩ | ⟨u, -, rfl⟩
  · exact State.finish_busy s (some x)
  · exact State.finish_busy u none

section Frame

variable {i : Instr} {s u : State} (h : Writes i s u)

include h

/-- No command writes a descriptor, CMDREG or the lists of the model's own (R38 to R40, R43). -/
theorem Writes.host_frame : u.shcount = s.shcount ∧ u.shlen = s.shlen ∧ u.present = s.present ∧ u.cmdreg = s.cmdreg ∧
    u.inputs = s.inputs ∧ u.replies = s.replies := by
  cases h <;> exact ⟨rfl, rfl, rfl, rfl, rfl, rfl⟩

/-- Only CINIT writes the codec (R30 to R32). -/
theorem Writes.codec_frame (hi : ∀ k m, i ≠ .cinit k m) : u.gvalid = s.gvalid ∧ u.k = s.k ∧ u.m = s.m ∧ u.g = s.g := by
  cases h with
  | codec hcinit => exact absurd hcinit (hi _ _)
  | _ => exact ⟨rfl, rfl, rfl, rfl⟩

/-- Only CVFY writes VFY (R35). -/
theorem Writes.vfy_frame (hi : ∀ off len, i ≠ .cvfy off len) : u.vfy = s.vfy := by
  cases h with
  | verify hcvfy => exact absurd hcvfy (hi _ _)
  | _ => rfl

/-- Only CENC and CDEC write shard memory (R211). -/
theorem Writes.shard_frame (hi : ∀ off len, i ≠ .cenc off len ∧ i ≠ .cdec off len) : u.shard = s.shard := by
  cases h with
  | shards hcodec =>
    rcases hcodec with hcenc | hcdec
    · exact absurd hcenc (hi _ _).1
    · exact absurd hcdec (hi _ _).2
  | _ => rfl

/-- Only the destination element register is written (R21). -/
theorem Writes.elem_frame {r : EReg} (hr : writesElem i ≠ some r) : u.elem r = s.elem r := by
  cases h with
  | elem hd =>
    rw [State.elem_setElem, if_neg]
    rintro rfl
    exact hr hd
  | _ => rfl

/-- The dimensions of a bank change only when it is replaced whole (R27). -/
theorem Writes.dimensions_frame {b : Bank} (hb : replacesBank i ≠ some b) :
    (u.bank b).rows = (s.bank b).rows ∧ (u.bank b).cols = (s.bank b).cols := by
  cases h with
  | bank hd =>
    rw [State.bank_setBank, if_neg]
    · exact ⟨rfl, rfl⟩
    · rintro rfl
      exact hb hd
  | cells hd hrows hcols =>
    rw [State.bank_setBank]
    split
    case isTrue hdb => exact hdb ▸ ⟨hrows, hcols⟩
    case isFalse => exact ⟨rfl, rfl⟩
  | _ => exact ⟨rfl, rfl⟩

/-- A bank changes only when it is replaced whole or its cells are written (R27). -/
theorem Writes.bank_frame {b : Bank} (hb : replacesBank i ≠ some b) (hc : changesCells i ≠ some b) : u.bank b = s.bank b := by
  cases h with
  | bank hd =>
    rw [State.bank_setBank, if_neg]
    rintro rfl
    exact hb hd
  | cells hd =>
    rw [State.bank_setBank, if_neg]
    rintro rfl
    exact hc hd
  | _ => rfl

end Frame

/-! ### The invariant -/

/-- ERR and BUSY are not in the invariant. -/
theorem Inv.finish {s : State} (h : Inv s) (x : Option Error) : Inv (s.finish x) :=
  ⟨h.banks, h.codec, h.shard⟩

/-- Banks written with what fits keep the invariant. -/
theorem Inv.setBank {s : State} (h : Inv s) (d : Bank) {A : Mat} (hA : bankOk A = true) : Inv (s.setBank d A) := by
  refine ⟨fun b => ?bank, h.codec, h.shard⟩
  case bank =>
    rw [State.bank_setBank]
    split
    · exact hA
    · exact h.banks b

/-- The codec CINIT installs is consistent (R31, R32). -/
theorem codecOk_cinit (s : State) {k m : Nat} (hbounds : 1 ≤ k ∧ 1 ≤ m ∧ k + m ≤ 256) {G : Mat} (hG : generator k m = some G) :
    codecOk { s with gvalid := true, k := BitVec.ofNat 9 k, m := BitVec.ofNat 9 m, g := G } = true := by
  obtain ⟨hk, hm, hn⟩ := hbounds
  obtain ⟨hwf, hrows, hcols⟩ := generator_shape hG
  have hK : (BitVec.ofNat 9 k).toNat = k := toNat_count (by omega)
  have hM : (BitVec.ofNat 9 m).toNat = m := toNat_count (by omega)
  rw [codecOk_iff rfl]
  simp only [State.N, State.K, State.M, hK, hM]
  exact ⟨hk, hm, hn, hwf, hrows, hcols⟩

theorem Writes.inv {i : Instr} {s u : State} (h : Writes i s u) (hinv : Inv s) : Inv u := by
  cases h with
  | elem => exact ⟨hinv.banks, hinv.codec, hinv.shard⟩
  | bank hd hA => exact hinv.setBank _ (hA hinv)
  | cells hd hrows hcols hwf =>
    obtain ⟨hwfOld, hr, hc⟩ := hinv.bank _
    exact hinv.setBank _ ((bankOk_iff _).mpr ⟨hwf hwfOld, hrows ▸ hr, hcols ▸ hc⟩)
  | codec hi hbounds hG => exact ⟨hinv.banks, codecOk_cinit s hbounds hG, hinv.shard⟩
  | verify => exact ⟨hinv.banks, hinv.codec, hinv.shard⟩
  | shards hi hmem => exact ⟨hinv.banks, hinv.codec, hmem hinv.shard⟩

theorem exec_keeps_inv {i : Instr} {s t : State} (hinv : Inv s) (h : exec i s = .next t) : Inv t := by
  rcases exec_next_cases h with ⟨x, -, rfl⟩ | ⟨u, hu, rfl⟩
  · exact hinv.finish (some x)
  · exact (hu.inv hinv).finish none

/-- The execute step is a command or the error completion of an illegal word (R71, R94, R95). -/
theorem executeStep_cases (s : State) : (∃ i, executeStep s = exec i s) ∨ executeStep s = raise .illegalCommand s := by
  unfold executeStep
  cases decode s.cmdreg with
  | ok i => exact .inl ⟨i, rfl⟩
  | error => exact .inr rfl

theorem executeStep_completes {s : State} (hinv : Inv s) : ∃ t, executeStep s = .next t := by
  rcases executeStep_cases s with ⟨i, hi⟩ | hi
  · rw [hi]
    exact exec_completes i hinv
  · exact ⟨_, hi⟩

theorem executeStep_next {s t : State} (h : executeStep s = .next t) :
    t.busy = false ∧ t.inputs = s.inputs ∧ (Inv s → Inv t) := by
  rcases executeStep_cases s with ⟨i, hi⟩ | hi <;> rw [hi] at h
  · refine ⟨exec_next_busy h, ?inputs, fun hinv => exec_keeps_inv hinv h⟩
    case inputs =>
      rcases exec_next_cases h with ⟨x, -, rfl⟩ | ⟨u, hu, rfl⟩
      · rfl
      · exact hu.host_frame.2.2.2.2.1
  · rw [raise_spec h]
    exact ⟨rfl, rfl, fun hinv => hinv.finish _⟩

/-! ### Everything a step can do -/

/-- The outcomes of a step: the engine's turn; an idle core with nothing to come; an event taken by the host's side; or the refusal of
a transaction while BUSY = 1 (R70 to R76, R290, R300). -/
inductive Moves (s : State) : Result → Prop where
  | engine {s' : State} (h : engineTurn s s') : Moves s (executeStep s')
  | idle (hi : s.inputs = []) (hb : s.busy = false) : Moves s (.next s)
  | host {v : Event} {rest : List Event} (hi : s.inputs = v :: rest)
      (hv : s.busy = false ∨ isPoll v = true ∨ ∃ contents, v = .reset contents) :
      Moves s (.next (hostStep v { s with inputs := rest }))
  | refused {v : Event} {rest : List Event} (hi : s.inputs = v :: rest) (hv : isTransaction v = true) (hb : s.busy = true)
      (hp : isPoll v = false) : Moves s (.refused .hostWhileBusy)

theorem moves_of_transaction {s : State} {v : Event} {rest : List Event} (hi : s.inputs = v :: rest)
    (hv : isTransaction v = true) : Moves s (step s) := by
  rw [step_of_transaction hi hv]
  split
  case isTrue h =>
    rw [Bool.and_eq_true, Bool.not_eq_true'] at h
    exact .refused hi hv h.1 h.2
  case isFalse h =>
    rw [Bool.and_eq_true, Bool.not_eq_true', not_and, Bool.not_eq_false] at h
    rcases Bool.eq_false_or_eq_true s.busy with hb | hb
    · exact .host hi (.inr (.inl (h hb)))
    · exact .host hi (.inl hb)

theorem step_moves (s : State) : Moves s (step s) := by
  cases hi : s.inputs with
  | nil =>
    cases hb : s.busy with
    | false => exact step_of_idle_no_inputs hi hb ▸ .idle hi hb
    | true =>
      have hturn : engineTurn s s := ⟨hb, .inl ⟨hi, rfl⟩⟩
      exact step_of_engineTurn hturn ▸ .engine hturn
  | cons v rest =>
    cases v with
    | engine =>
      cases hb : s.busy with
      | false =>
        have hstep : step s = .next { s with inputs := rest } := by simp [step, hi, hb]
        exact hstep ▸ .host hi (.inl hb)
      | true =>
        have hturn : engineTurn s { s with inputs := rest } := ⟨hb, .inr ⟨rest, hi, rfl⟩⟩
        exact step_of_engineTurn hturn ▸ .engine hturn
    | reset contents => exact step_of_reset hi ▸ .host hi (.inr (.inr ⟨contents, rfl⟩))
    | issue w => exact moves_of_transaction hi rfl
    | regRead n => exact moves_of_transaction hi rfl
    | regWrite n x => exact moves_of_transaction hi rfl
    | shardRead sh p => exact moves_of_transaction hi rfl
    | shardWrite sh p x => exact moves_of_transaction hi rfl

/-- The events to come are not in the invariant. -/
theorem Inv.setInputs {s : State} (h : Inv s) (rest : List Event) : Inv { s with inputs := rest } :=
  ⟨h.banks, h.codec, h.shard⟩

/-- A write to a register leaves what the invariant speaks of (R72). -/
theorem Inv.regWrite {s : State} (h : Inv s) (n : BitVec 12) (v : RegWord) : Inv (regWrite n v s) := by
  simp only [Machine.regWrite]
  split_ifs <;> exact ⟨h.banks, h.codec, h.shard⟩

theorem Inv.hostStep {s : State} (h : Inv s) (v : Event) : Inv (hostStep v s) := by
  cases v with
  | issue w => exact ⟨h.banks, h.codec, h.shard⟩
  | regRead n => exact ⟨h.banks, h.codec, h.shard⟩
  | regWrite n x => exact h.regWrite n x
  | shardRead sh p => exact ⟨h.banks, h.codec, h.shard⟩
  | shardWrite sh p x => exact ⟨h.banks, h.codec, wf_memWrite_port h.shard sh p x⟩
  | engine => exact h
  | reset contents => exact inv_reset (wf_shardContents contents) _ _ _

theorem Inv.of_engineTurn {s s' : State} (h : Inv s) (ht : engineTurn s s') : Inv s' := by
  obtain ⟨-, ⟨-, rfl⟩ | ⟨rest, -, rfl⟩⟩ := ht
  · exact h
  · exact h.setInputs rest

theorem step_keeps_inv {s t : State} (hinv : Inv s) (h : step s = .next t) : Inv t := by
  have hmoves := step_moves s
  generalize hr : step s = r at hmoves
  cases hmoves with
  | engine hturn => exact (executeStep_next (hr.symm.trans h)).2.2 (hinv.of_engineTurn hturn)
  | idle => cases hr.symm.trans h; exact hinv
  | host hi hv =>
    cases hr.symm.trans h
    exact (hinv.setInputs _).hostStep _
  | refused => cases hr.symm.trans h

/-! ### Obedient hosts (R300) -/

/-- Between the steps of an obedient run: the invariant holds, and the host obeys from here on. -/
def Obedient (s : State) : Prop := Inv s ∧ hostObeys s.busy s.inputs = true

@[simp] theorem hostObeys_nil (busy : Bool) : hostObeys busy [] = true := by
  cases busy <;> rfl

@[simp] theorem hostObeys_engine (busy : Bool) (rest : List Event) : hostObeys busy (.engine :: rest) = hostObeys false rest := by
  cases busy <;> rfl

@[simp] theorem hostObeys_reset (busy : Bool) (contents : List ShardByte) (rest : List Event) :
    hostObeys busy (.reset contents :: rest) = hostObeys false rest := by
  cases busy <;> rfl

/-- A transaction of an obedient host while BUSY = 1 is the poll. -/
theorem isPoll_of_hostObeys {v : Event} {rest : List Event} (hv : isTransaction v = true)
    (h : hostObeys true (v :: rest) = true) : isPoll v = true := by
  cases v with
  | regRead n => exact (Bool.and_eq_true_iff.mp h).1
  | engine | reset => cases hv
  | _ => cases h

theorem regWrite_frame (n : BitVec 12) (v : RegWord) (s : State) :
    (regWrite n v s).busy = s.busy ∧ (regWrite n v s).inputs = s.inputs := by
  simp only [regWrite]
  split_ifs <;> exact ⟨rfl, rfl⟩

theorem hostStep_inputs (v : Event) (s : State) : (hostStep v s).inputs = s.inputs := by
  cases v with
  | regWrite n x => exact (regWrite_frame n x s).2
  | _ => rfl

/-- After a transaction that latches no command the obedient host goes on obeying. -/
theorem hostObeys_tail {busy : Bool} {v : Event} {rest : List Event} (hv : isTransaction v = true) (hissue : ∀ w, v ≠ .issue w)
    (h : hostObeys busy (v :: rest) = true) : hostObeys busy rest = true := by
  cases busy with
  | true =>
    cases v with
    | regRead n => exact (Bool.and_eq_true_iff.mp h).2
    | engine | reset => cases hv
    | _ => cases h
  | false =>
    cases v with
    | issue w => exact absurd rfl (hissue w)
    | engine | reset => cases hv
    | _ => exact h

/-- After an event the obedient host goes on obeying, with the BUSY the event leaves. -/
theorem hostObeys_hostStep {v : Event} {rest : List Event} {s : State} (h : hostObeys s.busy (v :: rest) = true)
    (hv : v = .engine → s.busy = false) : hostObeys (hostStep v s).busy rest = true := by
  cases v with
  | issue w =>
    cases hb : s.busy <;> rw [hb] at h
    · exact h
    · cases h
  | regWrite n x =>
    rw [show (hostStep (.regWrite n x) s).busy = s.busy from (regWrite_frame n x s).1]
    exact hostObeys_tail rfl (by simp) h
  | engine => simpa [hv rfl, hostStep] using h
  | reset contents => simpa [hostStep, resetEvent, State.reset] using h
  | _ => exact hostObeys_tail rfl (by simp) h

theorem Obedient.step {s : State} (h : Obedient s) : ∃ t, step s = .next t ∧ Obedient t := by
  obtain ⟨hinv, hobeys⟩ := h
  have hmoves := step_moves s
  generalize hr : Machine.step s = r at hmoves
  cases hmoves with
  | @engine s' hturn =>
    obtain ⟨t, ht⟩ := executeStep_completes (hinv.of_engineTurn hturn)
    obtain ⟨hbusy, hinputs, -⟩ := executeStep_next ht
    refine ⟨t, ht, step_keeps_inv hinv (hr.trans ht), ?_⟩
    rw [hbusy, hinputs]
    obtain ⟨hb, ⟨hi, rfl⟩ | ⟨rest, hi, rfl⟩⟩ := hturn
    · simp [hi]
    · simpa [hi] using hobeys
  | idle hi hb => exact ⟨s, rfl, hinv, hobeys⟩
  | @host v rest hi hv =>
    refine ⟨_, rfl, step_keeps_inv hinv hr, ?_⟩
    rw [hostStep_inputs]
    rw [hi] at hobeys
    refine hostObeys_hostStep (s := { s with inputs := rest }) hobeys ?_
    rintro rfl
    simpa [isPoll] using hv
  | refused hi hv hb hp =>
    rw [hi, hb] at hobeys
    exact absurd (isPoll_of_hostObeys hv hobeys) (by simp [hp])

/-- However many steps it takes, an obedient run goes on. -/
theorem Obedient.run {s : State} (h : Obedient s) (n : Nat) : ∃ t, Host.Core.run Sys2Proof.core n s = .next t ∧ Obedient t := by
  induction n generalizing s with
  | zero => exact ⟨s, rfl, h⟩
  | succ n ih =>
    obtain ⟨u, hstep, hu⟩ := h.step
    obtain ⟨t, hrun, ht⟩ := ih hu
    exact ⟨t, (run_succ hstep n).trans hrun, ht⟩

/-- The state after one poll with `rest` to come (R73). -/
def pollAnswered (s : State) (rest : List Event) : State :=
  { s with inputs := rest, replies := .reg 0x000#12 s.status :: s.replies }

/-! ### The obligations -/

/-- Settles O22: a step is a command, an event of the host's side, or nothing, and each keeps the invariant. -/
theorem everyStepKeepsTheInvariant : Obligations.EveryStepKeepsTheInvariant :=
  fun _ _ => step_keeps_inv

/-- Settles O23, by induction over the run with obedience from here on in the invariant. -/
theorem obedientHostsNeverStopTheMachine : Obligations.ObedientHostsNeverStopTheMachine := by
  intro s hinv hobeys n
  obtain ⟨t, hrun, ht⟩ := Obedient.run ⟨hinv, hobeys⟩ n
  exact ⟨t, hrun, ht.1⟩

/-- Settles O24: the one fault needs more shards than the invariant allows. -/
theorem everyCommandCompletes : Obligations.EveryCommandCompletes := by
  intro i s hinv
  obtain ⟨t, ht⟩ := exec_completes i hinv
  exact ⟨t, ht, exec_next_busy ht⟩

/-- Settles O25, by induction on the number of polls. -/
theorem latchedCommandsAreExecuted : Obligations.LatchedCommandsAreExecuted := by
  intro s n hinv hbusy hinputs
  refine ⟨?run, ?completes⟩
  case run =>
    clear hinv
    induction n generalizing s with
    | zero => rw [run_one, step_of_no_inputs hinputs hbusy, afterPolls_zero hinputs]
    | succ n ih =>
      have hrest := ih (pollAnswered s (.replicate n (.regRead 0x000#12))) hbusy rfl
      have hpolls := congrArg executeStep (afterPolls_succ n s (.replicate n (.regRead 0x000#12)))
      exact (run_succ (step_of_poll hinputs) (n + 1)).trans (hrest.trans hpolls)
  case completes =>
    have hpolled : Inv (afterPolls n s) := ⟨hinv.banks, hinv.codec, hinv.shard⟩
    obtain ⟨t, ht⟩ := executeStep_completes hpolled
    exact ⟨t, ht, (executeStep_next ht).1⟩

/-- Settles O27: a success leaves ERR = 0, and an error is one of the table's. -/
theorem commandsRaiseOnlyTheirOwnErrors : Obligations.CommandsRaiseOnlyTheirOwnErrors := by
  intro i s t x hexec herr
  rcases exec_next_cases hexec with ⟨y, hy, rfl⟩ | ⟨u, -, rfl⟩
  · rw [State.finish_err] at herr
    exact Option.some.inj herr ▸ hy
  · rw [State.finish_err] at herr
    cases herr

/-- Settles O28: an error completion writes none of it, and a success one piece. -/
theorem onlyTheNamedCommandsWriteEachState : Obligations.OnlyTheNamedCommandsWriteEachState := by
  intro i s t hexec
  rcases exec_next_cases hexec with ⟨x, -, rfl⟩ | ⟨u, hu, rfl⟩
  · exact ⟨⟨rfl, rfl, rfl, rfl, rfl, rfl, rfl⟩, fun _ => ⟨rfl, rfl, rfl, rfl⟩, fun _ => rfl, fun _ => ⟨rfl, fun _ _ => rfl⟩,
      fun _ _ => rfl, fun _ _ => ⟨rfl, rfl⟩, fun _ _ _ => rfl⟩
  · obtain ⟨hshcount, hshlen, hpresent, hcmdreg, hinputs, hreplies⟩ := hu.host_frame
    refine ⟨⟨hshcount, hshlen, hpresent, hcmdreg, hinputs, hreplies, rfl⟩, hu.codec_frame, hu.vfy_frame, fun hi => ?shard,
      fun r => hu.elem_frame, fun b => hu.dimensions_frame, fun b => hu.bank_frame⟩
    case shard =>
      have hshard : (u.finish none).shard = s.shard := hu.shard_frame hi
      exact ⟨hshard, fun sh p => by rw [shardRead, shardRead, hshard]⟩

end Sys2Proof.Machine

/-! The bytes with `gf_add` and `gf_mul` are a field in Mathlib's sense (40_field.md R132), and the matrices of the model are matrices over
it (41_matrix.md R160, R161), so that Mathlib's linear algebra speaks of them. -/

namespace Sys2Proof.Machine

/-! ### The field of bytes -/

theorem gfAdd_gfMul (a b c : Byte) : gfMul (gfAdd a b) c = gfAdd (gfMul a c) (gfMul b c) := by
  rw [gfMul_comm, gfMul_gfAdd, gfMul_comm c a, gfMul_comm c b]

/-- The bytes as a type of their own, without the arithmetic modulo 256 that `BitVec` has. -/
def GfByte : Type := Byte

/-- The ring of bytes under `gf_add` and `gf_mul`; every element is its own negative. -/
abbrev gfByteCommRing : CommRing GfByte where
  add := gfAdd
  add_assoc := gfAdd_assoc
  zero := 0#8
  zero_add a := (gfAdd_comm _ a).trans (gfAdd_zero a)
  add_zero := gfAdd_zero
  nsmul := @nsmulRec GfByte ⟨0#8⟩ ⟨gfAdd⟩
  neg a := a
  zsmul := @zsmulRec GfByte ⟨0#8⟩ ⟨gfAdd⟩ ⟨id⟩ (@nsmulRec GfByte ⟨0#8⟩ ⟨gfAdd⟩)
  neg_add_cancel := gfAdd_self
  add_comm := gfAdd_comm
  mul := gfMul
  left_distrib := gfMul_gfAdd
  right_distrib := gfAdd_gfMul
  zero_mul := gfMul_zero_left
  mul_zero := gfMul_zero_right
  mul_assoc := gfMul_assoc
  one := 1#8
  one_mul := gfMul_one_left
  mul_one := gfMul_one_right
  mul_comm := gfMul_comm

theorem isField_gfByte : @IsField GfByte gfByteCommRing.toSemiring := by
  let := gfByteCommRing
  exact { exists_pair_ne := ⟨0#8, 1#8, (by decide : (0#8 : Byte) ≠ 1#8)⟩
          mul_comm := gfMul_comm
          mul_inv_cancel := fun {a} ha => ⟨gfQuot 1 a, (gfMul_comm _ _).trans (gfMul_gfQuot 1 ha)⟩ }

/-- The map takes the field functions of bytes to the operations of a field, one to one and onto. -/
structure IsFieldMap {F : Type} [Field F] (φ : Byte → F) : Prop where
  injective : Function.Injective φ
  surjective : Function.Surjective φ
  map_add : ∀ a b, φ (gfAdd a b) = φ a + φ b
  map_mul : ∀ a b, φ (gfMul a b) = φ a * φ b

theorem exists_fieldMap : ∃ (F : Type) (_ : Field F) (φ : Byte → F), IsFieldMap φ := by
  let field : Field GfByte := @IsField.toField GfByte gfByteCommRing.toRing isField_gfByte
  exact ⟨GfByte, field, id, Function.injective_id, Function.surjective_id, fun _ _ => rfl, fun _ _ => rfl⟩

section FieldMap

variable {F : Type} [Field F] {φ : Byte → F} (hφ : IsFieldMap φ)

include hφ

theorem IsFieldMap.map_zero : φ 0 = 0 := by
  have h := hφ.map_add 0 0
  rwa [show gfAdd 0 0 = (0 : Byte) from gfAdd_self 0, left_eq_add] at h

theorem IsFieldMap.map_eq_zero {a : Byte} : φ a = 0 ↔ a = 0 := by
  rw [← hφ.map_zero, hφ.injective.eq_iff]

theorem IsFieldMap.map_one : φ 1 = 1 := by
  have h := hφ.map_mul 1 1
  rw [gfMul_one_left] at h
  exact (mul_eq_left₀ (mt hφ.map_eq_zero.mp (by decide))).mp h.symm

theorem IsFieldMap.map_sub (a b : Byte) : φ (gfSub a b) = φ a - φ b := by
  have hcancel : gfAdd (gfSub a b) b = a := by rw [gfSub, gfAdd, BitVec.xor_assoc, BitVec.xor_self, BitVec.xor_zero]
  rw [eq_sub_iff_add_eq, ← hφ.map_add, hcancel]

theorem IsFieldMap.map_quot (a : Byte) {b : Byte} (hb : b ≠ 0) : φ (gfQuot a b) = φ a / φ b := by
  rw [eq_div_iff (mt hφ.map_eq_zero.mp hb), ← hφ.map_mul, gfMul_gfQuot a hb]

theorem IsFieldMap.map_exp (a : Byte) (n : Nat) : φ (gfExp a n) = φ a ^ n := by
  induction n with
  | zero => rw [gfExp_zero_right, hφ.map_one, pow_zero]
  | succ n ih => rw [gfExp_succ, hφ.map_mul, ih, pow_succ]

theorem IsFieldMap.map_xorOver (n : Nat) (f : Nat → Byte) : φ (xorOver n f) = ∑ i : Fin n, φ (f i) := by
  induction n with
  | zero => exact hφ.map_zero
  | succ n ih =>
    rw [xorOver, hφ.map_add, ih, Fin.sum_univ_castSucc]
    rfl

end FieldMap

/-! ### Matrices over the field -/

section ToMatrix

variable {F : Type}

/-- The `n x m` block of a matrix from row 0 and column `o` on, over the field. -/
def blockOf (φ : Byte → F) (n m o : Nat) (A : Mat) : Matrix (Fin n) (Fin m) F :=
  .of fun i j => φ (A.get i (o + j))

/-- A matrix of the model over the field. -/
abbrev matrixOf (φ : Byte → F) (n m : Nat) (A : Mat) : Matrix (Fin n) (Fin m) F := blockOf φ n m 0 A

variable {φ : Byte → F}

@[simp] theorem blockOf_apply (n m o : Nat) (A : Mat) (i : Fin n) (j : Fin m) :
    blockOf φ n m o A i j = φ (A.get i (o + j)) := rfl

theorem squareOf_ident (n : Nat) : squareOf (Mat.ident n) n := ⟨Mat.wf_ident n, rfl, rfl⟩

/-- Products of square matrices are square. -/
theorem squareOf_mul {A B : Mat} {n : Nat} (hA : squareOf A n) (hB : squareOf B n) : squareOf (A.mul B) n :=
  ⟨Mat.wf_mul A B, hA.2.1, hB.2.2⟩

variable [Field F] (hφ : IsFieldMap φ)

include hφ

theorem matrixOf_ident (n : Nat) : matrixOf φ n n (Mat.ident n) = 1 := by
  ext i j
  simp only [blockOf_apply, Nat.zero_add, Mat.get_ident i.isLt j.isLt, Matrix.one_apply, Fin.ext_iff]
  split
  · exact hφ.map_one
  · exact hφ.map_zero

theorem matrixOf_mul {A B : Mat} {n m k : Nat} (hrows : A.rows = n) (hinner : A.cols = m) (hcols : B.cols = k) :
    matrixOf φ n k (A.mul B) = matrixOf φ n m A * matrixOf φ m k B := by
  subst hrows hinner hcols
  ext i j
  simp only [blockOf_apply, Nat.zero_add, Mat.get_mul i.isLt j.isLt, hφ.map_xorOver, hφ.map_mul, Matrix.mul_apply]

/-- A matrix of the model is determined by what it is over the field. -/
theorem eq_of_matrixOf_eq {A B : Mat} {n : Nat} (hA : squareOf A n) (hB : squareOf B n)
    (h : matrixOf φ n n A = matrixOf φ n n B) : A = B := by
  obtain ⟨hwfA, hrowsA, hcolsA⟩ := hA
  obtain ⟨hwfB, hrowsB, hcolsB⟩ := hB
  refine Mat.ext_get hwfA hwfB (hrowsA.trans hrowsB.symm) (hcolsA.trans hcolsB.symm) fun r c hr hc => ?_
  have hcell := congrFun (congrFun h ⟨r, hrowsA ▸ hr⟩) ⟨c, hcolsA ▸ hc⟩
  simpa [hφ.injective.eq_iff] using hcell

/-- Two square matrices are inverse to each other exactly when they are over the field. -/
theorem mul_eq_ident_iff {A B : Mat} {n : Nat} (hA : squareOf A n) (hB : squareOf B n) :
    A.mul B = Mat.ident n ↔ matrixOf φ n n A * matrixOf φ n n B = 1 := by
  rw [← matrixOf_mul hφ hA.2.1 hA.2.2 hB.2.2, ← matrixOf_ident hφ]
  exact ⟨fun h => by rw [h], eq_of_matrixOf_eq hφ (squareOf_mul hA hB) (squareOf_ident n)⟩

end ToMatrix

end Sys2Proof.Machine

/-! Gauss-Jordan elimination (41_matrix.md R162) gives the inverse, and fails only where there is none (R163).

On the scratch matrix `W = [L | R]`, which starts as `[A | identity]`, every row operation keeps `L = R A`, and keeps `L` regular where
`A` is. The forward pass makes `L` unit upper triangular column by column, and can only stop at a column that shows `L` singular; the
backward pass makes `L` the identity, so that `R A` is the identity. -/

namespace Sys2Proof.Machine

/-! ### The row operations over the field (R162) -/

section RowOperations

variable {F : Type} {φ : Byte → F} {W : Mat} {n o : Nat}

theorem blockOf_swapRows (hwf : W.wf = true) (hrows : W.rows = n) (c r : Fin n) :
    blockOf φ n n o (W.swapRows c r) = (blockOf φ n n o W).submatrix (Equiv.swap c r) id := by
  have hc : c.val < W.rows := hrows ▸ c.isLt
  have hr : r.val < W.rows := hrows ▸ r.isLt
  ext i j
  simp only [blockOf_apply, Matrix.submatrix_apply, id, Equiv.swap_apply_def, Mat.get_swapRows hwf hc hr, Fin.val_inj]
  by_cases hic : i = c
  · by_cases hir : i = r
    · simp [← hic, ← hir]
    · simp [hic, hic ▸ hir]
  · by_cases hir : i = r
    · simp [hir, hir ▸ hic]
    · simp [hic, hir]

variable [Field F] (hφ : IsFieldMap φ)

include hφ

theorem blockOf_scaleRow (hwf : W.wf = true) (hrows : W.rows = n) (hcols : o + n ≤ W.cols) (c : Fin n) (hpivot : W.get c c ≠ 0) :
    blockOf φ n n o (scaleRow W c) = (blockOf φ n n o W).updateRow c ((φ (W.get c c))⁻¹ • blockOf φ n n o W c) := by
  ext i j
  rw [blockOf_apply, get_scaleRow hwf (hrows ▸ c.isLt) _ _ (by omega), Matrix.updateRow_apply]
  simp only [← Fin.ext_iff]
  split
  · rw [hφ.map_quot _ hpivot, Pi.smul_apply, smul_eq_mul, blockOf_apply, div_eq_inv_mul]
  · rfl

/-- What elimination adds of the pivot row to each row. -/
def eliminationFactor (φ : Byte → F) (W : Mat) (n c : Nat) (which : Nat → Bool) : Fin n → F :=
  fun i => if which i then -φ (W.get i c) else 0

theorem blockOf_eliminate (hwf : W.wf = true) (hrows : W.rows = n) (hcols : o + n ≤ W.cols) (c : Fin n) (which : Nat → Bool)
    (i j : Fin n) : blockOf φ n n o (eliminate W c which) i j =
      blockOf φ n n o W i j + eliminationFactor φ W n c which i * blockOf φ n n o W c j := by
  rw [blockOf_apply, get_eliminate hwf (hrows ▸ c.isLt) (hrows ▸ i.isLt) (by omega), eliminationFactor]
  split
  · rw [hφ.map_sub, hφ.map_mul, blockOf_apply, blockOf_apply]
    ring
  · rw [zero_mul, add_zero, blockOf_apply]

end RowOperations

/-! ### What every row operation keeps -/

section Scratch

variable {F : Type} [Field F] {φ : Byte → F} {n : Nat} {M : Matrix (Fin n) (Fin n) F} {W : Mat}

/-- The scratch matrix `[L | R]` of an elimination of `M`: its shape, `L = R M`, and that `L` is regular if `M` is. -/
structure IsScratch (φ : Byte → F) (M : Matrix (Fin n) (Fin n) F) (W : Mat) : Prop where
  wf : W.wf = true
  rows : W.rows = n
  cols : W.cols = n + n
  left_eq : blockOf φ n n 0 W = blockOf φ n n n W * M
  regular : M.det ≠ 0 → (blockOf φ n n 0 W).det ≠ 0

theorem IsScratch.swapRows (h : IsScratch φ M W) (c r : Fin n) : IsScratch φ M (W.swapRows c r) := by
  have hc : c.val < W.rows := h.rows.symm ▸ c.isLt
  have hr : r.val < W.rows := h.rows.symm ▸ r.isLt
  refine ⟨Mat.wf_swapRows h.wf hc hr, h.rows, h.cols, ?left, fun hM => ?det⟩
  case left =>
    rw [blockOf_swapRows h.wf h.rows, blockOf_swapRows h.wf h.rows, h.left_eq]
    exact (Matrix.submatrix_mul_equiv _ _ _ (Equiv.refl _) _).symm
  case det =>
    rw [blockOf_swapRows h.wf h.rows, Matrix.det_permute]
    rcases Int.units_eq_one_or (Equiv.Perm.sign (Equiv.swap c r)) with hsign | hsign <;> simpa [hsign] using h.regular hM

variable (hφ : IsFieldMap φ)

include hφ

theorem IsScratch.scaleRow (h : IsScratch φ M W) (c : Fin n) (hpivot : W.get c c ≠ 0) : IsScratch φ M (scaleRow W c) := by
  have hc : c.val < W.rows := h.rows.symm ▸ c.isLt
  have hcols := h.cols
  have hleft := blockOf_scaleRow (o := 0) hφ h.wf h.rows (by omega) c hpivot
  have hright := blockOf_scaleRow (o := n) hφ h.wf h.rows (by omega) c hpivot
  refine ⟨wf_scaleRow h.wf hc, h.rows, h.cols, ?left, fun hM => ?det⟩
  case left =>
    rw [hleft, hright, h.left_eq, Matrix.updateRow_mul, Matrix.smul_vecMul]
    rfl
  case det =>
    rw [hleft, Matrix.det_updateRow_smul, Matrix.updateRow_eq_self]
    exact mul_ne_zero (inv_ne_zero (mt hφ.map_eq_zero.mp hpivot)) (h.regular hM)

theorem IsScratch.eliminate (h : IsScratch φ M W) (c : Fin n) {which : Nat → Bool} (hwhich : which c = false) :
    IsScratch φ M (eliminate W c which) := by
  have hc : c.val < W.rows := h.rows.symm ▸ c.isLt
  have hcols := h.cols
  have hleft := blockOf_eliminate (o := 0) hφ h.wf h.rows (by omega) c which
  have hright := blockOf_eliminate (o := n) hφ h.wf h.rows (by omega) c which
  refine ⟨wf_eliminate h.wf hc which, h.rows, h.cols, ?left, fun hM => ?det⟩
  case left =>
    ext i j
    rw [hleft, h.left_eq, Matrix.mul_apply, Matrix.mul_apply, Matrix.mul_apply]
    simp only [hright, add_mul, Finset.sum_add_distrib, Finset.mul_sum, mul_assoc]
  case det =>
    have hfactor : eliminationFactor φ W n c which c = 0 := by simp [eliminationFactor, hwhich]
    rw [Matrix.det_eq_of_forall_row_eq_smul_add_const _ c hfactor hleft]
    exact h.regular hM

end Scratch

/-! ### The forward pass -/

/-- The first `c` columns of the scratch matrix are unit upper triangular. -/
def UnitUpper (n : Nat) (W : Mat) (c : Nat) : Prop :=
  ∀ j, j < c → W.get j j = 1 ∧ ∀ i, j < i → i < n → W.get i j = 0

section Forward

variable {n c : Nat} {W : Mat} (hwf : W.wf = true) (hrows : W.rows = n) (hcols : n ≤ W.cols) (hc : c < n) (h : UnitUpper n W c)

include hwf hrows h

/-- Rows from `c` down have zeros in the columns before, so their exchange does not change those. -/
theorem unitUpper_swapRows {r : Nat} (hcr : c ≤ r) (hr : r < n) : UnitUpper n (W.swapRows c r) c := by
  have hget := Mat.get_swapRows hwf (r1 := c) (r2 := r) (by omega) (by omega)
  refine fun j hj => ⟨?diagonal, fun i hji hi => ?below⟩
  case diagonal => rw [hget, if_neg (by omega), if_neg (by omega), (h j hj).1]
  case below =>
    rw [hget]
    split
    · exact (h j hj).2 c hj (by omega)
    · split
      · exact (h j hj).2 r (by omega) hr
      · exact (h j hj).2 i hji hi

include hcols hc

/-- Zeros divided by the pivot are zeros. -/
theorem unitUpper_scaleRow : UnitUpper n (scaleRow W c) c := by
  have hget := fun i j hj => get_scaleRow hwf (c := c) (by omega) i j (Nat.lt_of_lt_of_le hj hcols)
  refine fun j hj => ⟨?diagonal, fun i hji hi => ?below⟩
  case diagonal => rw [hget j j (by omega), if_neg (by omega), (h j hj).1]
  case below =>
    rw [hget i j (by omega)]
    split
    · rw [(h j hj).2 c hj hc, gfQuot_zero_left]
    · exact (h j hj).2 i hji hi

/-- Elimination below a pivot 1 makes column `c` unit upper triangular, and subtracts zeros in the columns before. -/
theorem unitUpper_eliminate (hpivot : W.get c c = 1) : UnitUpper n (eliminate W c fun i => decide (c < i)) (c + 1) := by
  have hget := fun i j hi hj => get_eliminate hwf (c := c) (by omega) (p := fun i => decide (c < i)) (r := i) (j := j)
    (Nat.lt_of_lt_of_eq hi hrows.symm) (Nat.lt_of_lt_of_le hj hcols)
  refine fun j hj => ⟨?diagonal, fun i hji hi => ?below⟩
  case diagonal =>
    rw [hget j j (by omega) (by omega), if_neg (by simpa using Nat.le_of_lt_succ hj)]
    rcases Nat.lt_succ_iff_lt_or_eq.mp hj with hlt | rfl
    · exact (h j hlt).1
    · exact hpivot
  case below =>
    rw [hget i j hi (by omega)]
    rcases Nat.lt_succ_iff_lt_or_eq.mp hj with hlt | rfl
    · rw [(h j hlt).2 i hji hi, (h j hlt).2 c hlt hc]
      simp [gfSub]
    · rw [if_pos (by simpa using hji), hpivot, gfMul_one_right]
      exact BitVec.xor_self

end Forward

theorem get_scaleRow_pivot {W : Mat} (hwf : W.wf = true) {c : Nat} (hrows : c < W.rows) (hcols : c < W.cols) (hpivot : W.get c c ≠ 0) :
    (scaleRow W c).get c c = 1 := by
  rw [get_scaleRow hwf hrows c c hcols, if_pos rfl, gfQuot_self hpivot]

/-- A matrix with zeros from row `c` down in the columns up to `c` is singular. -/
theorem det_eq_zero_of_corner {F : Type} [Field F] {n c : Nat} {L : Matrix (Fin n) (Fin n) F} (hc : c < n)
    (h : ∀ i j : Fin n, c ≤ i.val → j.val ≤ c → L i j = 0) : L.det = 0 := by
  have hcorner : (L.toSquareBlockProp fun i => ¬i.val < c).det = 0 :=
    Matrix.det_eq_zero_of_column_eq_zero ⟨⟨c, hc⟩, Nat.lt_irrefl c⟩ fun i => h i _ (Nat.not_lt.mp i.2) (Nat.le_refl c)
  rw [Matrix.twoBlockTriangular_det L (fun i => i.val < c) fun i hi j hj => h i j (Nat.not_lt.mp hi) hj.le, hcorner, mul_zero]

section ForwardPass

variable {F : Type} [Field F] {φ : Byte → F} (hφ : IsFieldMap φ) {n : Nat} {M : Matrix (Fin n) (Fin n) F} {W V : Mat}

include hφ

/-- A column of the forward pass that finds a pivot keeps the scratch matrix one of `M`, and makes one more column unit upper
triangular. -/
theorem forwardStep_spec (hW : IsScratch φ M W) {c : Nat} (hc : c < n) (h : UnitUpper n W c) (hV : forwardStep n W c = some V) :
    IsScratch φ M V ∧ UnitUpper n V (c + 1) := by
  cases hp : pivotRow W n c with
  | none => simp [forwardStep, hp] at hV
  | some r =>
    obtain ⟨hcr, hr, hpivot, -⟩ := pivotRow_some hp
    obtain rfl : eliminate (scaleRow (W.swapRows c r) c) c (fun i => decide (c < i)) = V := by simpa [forwardStep, hp] using hV
    have hcols : ∀ {U : Mat}, IsScratch φ M U → n ≤ U.cols := fun hU => by
      have := hU.cols
      omega
    have hS : IsScratch φ M (W.swapRows c r) := hW.swapRows ⟨c, hc⟩ ⟨r, hr⟩
    have hpivotS : (W.swapRows c r).get c c ≠ 0 := by
      rw [Mat.get_swapRows hW.wf (by rw [hW.rows]; exact hc) (by rw [hW.rows]; exact hr)]
      split
      case isTrue heq =>
        subst heq
        exact hpivot
      case isFalse => rwa [if_pos rfl]
    have hT : IsScratch φ M (scaleRow (W.swapRows c r) c) := hS.scaleRow hφ ⟨c, hc⟩ hpivotS
    have upperS := unitUpper_swapRows hW.wf hW.rows h hcr hr
    have upperT := unitUpper_scaleRow hS.wf hS.rows (hcols hS) hc upperS
    have hone := get_scaleRow_pivot hS.wf (by rw [hS.rows]; exact hc) (Nat.lt_of_lt_of_le hc (hcols hS)) hpivotS
    exact ⟨hT.eliminate hφ ⟨c, hc⟩ (by simp), unitUpper_eliminate hT.wf hT.rows (hcols hT) hc upperT hone⟩

/-- A column of the forward pass fails only where the matrix is singular: from row `c` down the columns up to `c` are zero. -/
theorem forwardStep_isSome (hW : IsScratch φ M W) {c : Nat} (hc : c < n) (h : UnitUpper n W c) (hM : M.det ≠ 0) :
    ∃ V, forwardStep n W c = some V := by
  cases hp : pivotRow W n c with
  | some r => exact ⟨_, by rw [forwardStep, hp]⟩
  | none =>
    have hcol := pivotRow_none hp
    refine absurd (det_eq_zero_of_corner hc fun i j hi hj => ?_) (hW.regular hM)
    rw [blockOf_apply, Nat.zero_add]
    rcases Nat.lt_or_eq_of_le hj with hlt | heq
    · rw [(h j hlt).2 i (by omega) i.isLt, hφ.map_zero]
    · rw [heq, hcol i hi i.isLt, hφ.map_zero]

theorem forwardPass_spec (hW : IsScratch φ M W) {c : Nat} (hc : c ≤ n) (hV : forwardPass n W c = some V) :
    IsScratch φ M V ∧ UnitUpper n V c := by
  induction c generalizing V with
  | zero =>
    cases hV
    exact ⟨hW, fun j hj => absurd hj (Nat.not_lt_zero j)⟩
  | succ c ih =>
    cases hU : forwardPass n W c with
    | none => simp [forwardPass, hU] at hV
    | some U =>
      obtain ⟨hscratch, hupper⟩ := ih (by omega) hU
      exact forwardStep_spec hφ hscratch (by omega) hupper (by simpa [forwardPass, hU] using hV)

theorem forwardPass_isSome (hW : IsScratch φ M W) {c : Nat} (hc : c ≤ n) (hM : M.det ≠ 0) : ∃ V, forwardPass n W c = some V := by
  induction c with
  | zero => exact ⟨W, rfl⟩
  | succ c ih =>
    obtain ⟨U, hU⟩ := ih (by omega)
    obtain ⟨hscratch, hupper⟩ := forwardPass_spec hφ hW (by omega) hU
    obtain ⟨V, hV⟩ := forwardStep_isSome hφ hscratch (by omega) hupper hM
    exact ⟨V, by simp only [forwardPass, hU, hV]⟩

end ForwardPass

/-! ### The backward pass -/

/-- The columns from `c` on have zeros above the diagonal too. -/
def ClearAbove (n : Nat) (W : Mat) (c : Nat) : Prop := ∀ i j, c ≤ j → j < n → i < j → W.get i j = 0

section Backward

variable {n c : Nat} {W : Mat} (hwf : W.wf = true) (hrows : W.rows = n) (hcols : n ≤ W.cols) (hc : c < n) (h : UnitUpper n W n)

include hwf hrows hcols hc h

/-- Elimination above the unit pivot of column `c` keeps the triangle: row `c` has zeros in the columns before. -/
theorem unitUpper_eliminate_above : UnitUpper n (eliminate W c fun i => decide (i < c)) n := by
  have hget := fun i j hi hj => get_eliminate hwf (c := c) (by omega) (p := fun i => decide (i < c)) (r := i) (j := j)
    (Nat.lt_of_lt_of_eq hi hrows.symm) (Nat.lt_of_lt_of_le hj hcols)
  have hzero : ∀ i j, j < c → gfSub (W.get i j) (gfMul (W.get i c) (W.get c j)) = W.get i j := fun i j hj => by
    rw [(h j (by omega)).2 c hj hc]
    simp [gfSub]
  refine fun j hj => ⟨?diagonal, fun i hji hi => ?below⟩
  case diagonal =>
    rw [hget j j hj hj]
    split
    case isTrue hjc => rw [hzero j j (by simpa using hjc), (h j hj).1]
    case isFalse => exact (h j hj).1
  case below =>
    rw [hget i j hi hj]
    split
    case isTrue hic => rw [hzero i j (by simp at hic; omega), (h j hj).2 i hji hi]
    case isFalse => exact (h j hj).2 i hji hi

/-- It clears column `c` above the diagonal, and the columns after it stay clear, as row `c` is clear there. -/
theorem clearAbove_eliminate_above (hclear : ClearAbove n W (c + 1)) :
    ClearAbove n (eliminate W c fun i => decide (i < c)) c := by
  have hget := fun i j hi hj => get_eliminate hwf (c := c) (by omega) (p := fun i => decide (i < c)) (r := i) (j := j)
    (Nat.lt_of_lt_of_eq hi hrows.symm) (Nat.lt_of_lt_of_le hj hcols)
  intro i j hcj hj hij
  rw [hget i j (by omega) hj]
  rcases Nat.lt_or_eq_of_le hcj with hlt | rfl
  · rw [hclear i j hlt hj hij, hclear c j hlt hj hlt]
    simp [gfSub]
  · rw [if_pos (by simpa using hij), (h c hc).1, gfMul_one_right]
    exact BitVec.xor_self

end Backward

section BackwardPass

variable {F : Type} [Field F] {φ : Byte → F} (hφ : IsFieldMap φ) {n : Nat} {M : Matrix (Fin n) (Fin n) F} {W : Mat}

include hφ

theorem backwardPass_spec (hW : IsScratch φ M W) (h : UnitUpper n W n) {c : Nat} (hc : c ≤ n) (hclear : ClearAbove n W c) :
    IsScratch φ M (backwardPass W c) ∧ UnitUpper n (backwardPass W c) n ∧ ClearAbove n (backwardPass W c) 0 := by
  induction c generalizing W with
  | zero => exact ⟨hW, h, hclear⟩
  | succ c ih =>
    have hcols : n ≤ W.cols := by
      have := hW.cols
      omega
    exact ih (hW.eliminate hφ ⟨c, hc⟩ (by simp)) (unitUpper_eliminate_above hW.wf hW.rows hcols hc h) (by omega)
      (clearAbove_eliminate_above hW.wf hW.rows hcols hc h hclear)

/-- A triangle that is clear above the diagonal too is the identity. -/
theorem blockOf_eq_one (h : UnitUpper n W n) (hclear : ClearAbove n W 0) : blockOf φ n n 0 W = 1 := by
  ext i j
  rw [blockOf_apply, Nat.zero_add, Matrix.one_apply]
  rcases Nat.lt_trichotomy i.val j.val with hlt | heq | hgt
  · rw [hclear i j (Nat.zero_le _) j.isLt hlt, hφ.map_zero, if_neg (Fin.ne_of_lt hlt)]
  · rw [heq, (h j j.isLt).1, hφ.map_one, if_pos (Fin.ext heq)]
  · rw [(h j j.isLt).2 i hgt i.isLt, hφ.map_zero, if_neg (Fin.ne_of_gt hgt)]

/-! ### The inverse (R162, R163) -/

/-- The scratch matrix the elimination starts with is `[A | identity]`. -/
theorem isScratch_augment {A : Mat} (hA : squareOf A n) : IsScratch φ (matrixOf φ n n A) (A.augment (Mat.ident n)) := by
  obtain ⟨hwf, hrows, hcols⟩ := hA
  have hleft : blockOf φ n n 0 (A.augment (Mat.ident n)) = matrixOf φ n n A := by
    ext i j
    simp only [blockOf_apply, Nat.zero_add]
    rw [Mat.get_augment (by omega) (by simp; omega), if_pos (by omega)]
  have hright : blockOf φ n n n (A.augment (Mat.ident n)) = 1 := by
    rw [← matrixOf_ident hφ]
    ext i j
    simp only [blockOf_apply, Nat.zero_add]
    rw [Mat.get_augment (by omega) (by simp; omega), if_neg (by omega), hcols, Nat.add_sub_cancel_left]
  refine ⟨Mat.wf_augment _ _, hrows, by simp [hcols], ?_, ?_⟩
  · rw [hleft, hright, one_mul]
  · rw [hleft]
    exact id

theorem matInv_left_inverse {A X : Mat} (hA : squareOf A n) (hX : matInv A = some X) :
    matrixOf φ n n X * matrixOf φ n n A = 1 := by
  have hrows := hA.2.1
  subst hrows
  cases hV : forwardPass A.rows (A.augment (Mat.ident A.rows)) A.rows with
  | none => simp [matInv, hV] at hX
  | some V =>
    obtain rfl : (backwardPass V A.rows).sub 0 A.rows A.rows (2 * A.rows) = X := by simpa [matInv, hV] using hX
    obtain ⟨hscratch, hupper⟩ := forwardPass_spec hφ (isScratch_augment hφ hA) (Nat.le_refl _) hV
    obtain ⟨hR, hupperR, hclearR⟩ := backwardPass_spec hφ hscratch hupper (Nat.le_refl _) fun i j hj hlt => absurd hlt hj.not_gt
    have hblock : matrixOf φ A.rows A.rows ((backwardPass V A.rows).sub 0 A.rows A.rows (2 * A.rows)) =
        blockOf φ A.rows A.rows A.rows (backwardPass V A.rows) := by
      ext i j
      simp only [blockOf_apply, Nat.zero_add]
      rw [Mat.get_sub (by omega) (by omega), Nat.zero_add]
    rw [hblock, ← hR.left_eq, blockOf_eq_one hφ hupperR hclearR]

theorem matInv_isSome {A : Mat} (hA : squareOf A n) (hdet : (matrixOf φ n n A).det ≠ 0) : ∃ X, matInv A = some X := by
  have hrows := hA.2.1
  subst hrows
  obtain ⟨V, hV⟩ := forwardPass_isSome hφ (isScratch_augment hφ hA) (Nat.le_refl _) hdet
  exact ⟨_, by simp only [matInv, hV]; rfl⟩

end BackwardPass

/-- Elimination gives `X` exactly when `X` is the inverse (R163). -/
theorem matInv_eq_some_iff {A X : Mat} {n : Nat} (hA : squareOf A n) :
    matInv A = some X ↔ squareOf X n ∧ X.mul A = Mat.ident n := by
  obtain ⟨F, _, φ, hφ⟩ := exists_fieldMap
  have hsquare : ∀ Y, matInv A = some Y → squareOf Y n := fun Y hY => by
    obtain ⟨hwf, hrows, hcols⟩ := matInv_shape hY
    exact ⟨hwf, hrows.trans hA.2.1, hcols.trans hA.2.1⟩
  constructor
  · exact fun h => ⟨hsquare X h, (mul_eq_ident_iff hφ (hsquare X h) hA).mpr (matInv_left_inverse hφ hA h)⟩
  · rintro ⟨hX, hinv⟩
    have hleft := (mul_eq_ident_iff hφ hX hA).mp hinv
    have hdet : (matrixOf φ n n A).det ≠ 0 := by
      have hprod := congrArg Matrix.det hleft
      rw [Matrix.det_mul, Matrix.det_one] at hprod
      exact right_ne_zero_of_mul_eq_one hprod
    obtain ⟨Y, hY⟩ := matInv_isSome hφ hA hdet
    have hYX : matrixOf φ n n Y = matrixOf φ n n X := left_inv_eq_right_inv (matInv_left_inverse hφ hA hY) (mul_eq_one_comm.mp hleft)
    rw [hY, eq_of_matrixOf_eq hφ (hsquare Y hY) hX hYX]

/-- A left inverse of a square matrix is a right inverse (R163). -/
theorem mul_eq_ident_comm {A B : Mat} {n : Nat} (hA : squareOf A n) (hB : squareOf B n) :
    A.mul B = Mat.ident n ↔ B.mul A = Mat.ident n := by
  obtain ⟨F, _, φ, hφ⟩ := exists_fieldMap
  rw [mul_eq_ident_iff hφ hA hB, mul_eq_ident_iff hφ hB hA, mul_eq_one_comm]

/-! ### The obligations -/

/-- Settles O48: what elimination gives is a left inverse, so a right one, and the matrix is its inverse. -/
theorem inversionGivesTheTwoSidedInverse : Obligations.InversionGivesTheTwoSidedInverse := by
  intro A X n hA hX
  obtain ⟨hsquare, hleft⟩ := (matInv_eq_some_iff hA).mp hX
  have hright := (mul_eq_ident_comm hsquare hA).mp hleft
  exact ⟨hsquare, hright, hleft, (matInv_eq_some_iff hsquare).mpr ⟨hA, hright⟩⟩

/-- Settles O49: elimination finds the inverse where there is one. -/
theorem singularExactlyWhenNoInverse : Obligations.SingularExactlyWhenNoInverse := by
  intro A n hA
  constructor
  · rintro hnone ⟨X, hX, -, hleft⟩
    rw [(matInv_eq_some_iff hA).mpr ⟨hX, hleft⟩] at hnone
    cases hnone
  · intro hno
    by_contra hsome
    obtain ⟨X, hX⟩ := Option.ne_none_iff_exists'.mp hsome
    obtain ⟨hsquare, hleft⟩ := (matInv_eq_some_iff hA).mp hX
    exact hno ⟨X, hsquare, (mul_eq_ident_comm hsquare hA).mp hleft, hleft⟩

end Sys2Proof.Machine

/-! Construction of the codec (42_codec.md R201 to R203): the generator matrix exists for all counts within the bounds, its top block is
the identity, any `k` of its rows are invertible (R34), and every step keeps the store so. -/

namespace Sys2Proof.Machine

/-! ### The Vandermonde matrix (R202) -/

/-- Matrices with distinct elements' powers for rows are invertible: over the field they are Vandermonde matrices. -/
theorem det_powers_ne_zero {F : Type} [Field F] {φ : Byte → F} (hφ : IsFieldMap φ) {k : Nat} {x : Nat → Byte}
    (hx : ∀ i j, i < k → j < k → x i = x j → i = j) : (matrixOf φ k k (Mat.build k k fun r c => gfExp (x r) c)).det ≠ 0 := by
  have hvander : matrixOf φ k k (Mat.build k k fun r c => gfExp (x r) c) = Matrix.vandermonde fun i : Fin k => φ (x i) := by
    ext i j
    simp only [blockOf_apply, Nat.zero_add, Mat.get_build _ i.isLt j.isLt, hφ.map_exp, Matrix.vandermonde_apply]
  rw [hvander, Matrix.det_vandermonde_ne_zero_iff]
  exact fun i j hij => Fin.ext (hx i j i.isLt j.isLt (hφ.injective hij))

/-- The row numbers of a codec are distinct elements. -/
theorem ofNat_byte_inj {i j : Nat} (hi : i < 256) (hj : j < 256) (h : BitVec.ofNat 8 i = BitVec.ofNat 8 j) : i = j := by
  have hval := congrArg BitVec.toNat h
  rwa [BitVec.toNat_ofNat, BitVec.toNat_ofNat, Nat.mod_eq_of_lt hi, Nat.mod_eq_of_lt hj] at hval

theorem squareOf_build (n : Nat) (f : Nat → Nat → Byte) : squareOf (Mat.build n n f) n := ⟨Mat.wf_build n n f, rfl, rfl⟩

/-- The top block of the Vandermonde matrix, cell by cell (R203). -/
theorem vanderTop_eq {n k : Nat} (hk : k ≤ n) : vanderTop n k = Mat.build k k fun r c => gfExp (BitVec.ofNat 8 r) c := by
  refine Mat.ext_get (Mat.wf_sub _ _ _ _ _) (Mat.wf_build _ _ _) rfl rfl fun r c hr hc => ?_
  have hr' : r < k := hr
  have hc' : c < k := hc
  rw [vanderTop, Mat.get_sub hr hc, Mat.get_build _ hr' hc', vandermonde, Nat.zero_add, Nat.zero_add,
    Mat.get_build _ (by omega) hc']

theorem squareOf_vanderTop (n k : Nat) : squareOf (vanderTop n k) k := ⟨Mat.wf_sub _ _ _ _ _, rfl, rfl⟩

/-! ### The generator matrix (R201, R203) -/

/-- The generator matrix is `V Ti`, `Ti` the inverse of the top block. -/
theorem generator_eq_some_iff {k m : Nat} {G : Mat} : generator k m = some G ↔
    ∃ Ti, matInv (vanderTop (k + m) k) = some Ti ∧ (vandermonde (k + m) k).mul Ti = G := by
  unfold generator
  cases matInv (vanderTop (k + m) k) <;> simp

/-- Within the bounds the elimination finds the inverse of the top block. -/
theorem generator_isSome {k m : Nat} (h : k + m ≤ 256) : ∃ G, generator k m = some G := by
  obtain ⟨F, _, φ, hφ⟩ := exists_fieldMap
  have hdet : (matrixOf φ k k (vanderTop (k + m) k)).det ≠ 0 := by
    rw [vanderTop_eq (Nat.le_add_right k m)]
    exact det_powers_ne_zero hφ fun i j hi hj => ofNat_byte_inj (by omega) (by omega)
  obtain ⟨Ti, hTi⟩ := matInv_isSome hφ (squareOf_vanderTop _ _) hdet
  exact ⟨_, generator_eq_some_iff.mpr ⟨Ti, hTi, rfl⟩⟩

/-- Selected rows of a product are the product of the selected rows. -/
theorem selectedRows_mul {A B : Mat} {k : Nat} {sel : List Nat} (hA : A.cols = k) (hB : B.cols = k)
    (hsel : ∀ j, j < k → sel.getD j 0 < A.rows) : selectedRows (A.mul B) k sel = (selectedRows A k sel).mul B := by
  refine Mat.ext_get (Mat.wf_build _ _ _) (Mat.wf_mul _ _) rfl hB.symm fun r c hr hc => ?_
  have hr' : r < k := hr
  have hc' : c < k := hc
  rw [selectedRows, Mat.get_build _ hr' hc', Mat.get_mul (hsel r hr') (by omega),
    Mat.get_mul (A := selectedRows A k sel) hr' (by omega), hA]
  refine xorOver_congr fun i hi => ?_
  rw [selectedRows, Mat.get_build _ hr' hi]

/-- Selected rows of the Vandermonde matrix. -/
theorem selectedRows_vandermonde {n k : Nat} {sel : List Nat} (hsel : ∀ j, j < k → sel.getD j 0 < n) :
    selectedRows (vandermonde n k) k sel = Mat.build k k fun j c => gfExp (BitVec.ofNat 8 (sel.getD j 0)) c := by
  refine Mat.ext_get (Mat.wf_build _ _ _) (Mat.wf_build _ _ _) rfl rfl fun r c hr hc => ?_
  have hr' : r < k := hr
  have hc' : c < k := hc
  rw [selectedRows, Mat.get_build _ hr' hc', Mat.get_build _ hr' hc', vandermonde, Mat.get_build _ (hsel r hr') hc']

/-- R34's first invariant holds of the generator matrix: the top block is `T T^-1`. -/
theorem topIsIdentity_generator {k m : Nat} {G : Mat} (h : generator k m = some G) : topIsIdentity G k := by
  obtain ⟨Ti, hTi, rfl⟩ := generator_eq_some_iff.mp h
  obtain ⟨hsquare, hleft⟩ := (matInv_eq_some_iff (squareOf_vanderTop _ _)).mp hTi
  have hright := (mul_eq_ident_comm hsquare (squareOf_vanderTop _ _)).mp hleft
  intro r c hr hc
  have hcols : c < Ti.cols := hsquare.2.2 ▸ hc
  calc ((vandermonde (k + m) k).mul Ti).get r c
      = ((vanderTop (k + m) k).mul Ti).get r c := by
        rw [Mat.get_mul (Nat.lt_add_right m hr) hcols, Mat.get_mul hr hcols]
        refine xorOver_congr fun i hi => ?_
        rw [vanderTop, Mat.get_sub hr hi, Nat.zero_add, Nat.zero_add]
    _ = if r = c then 1 else 0 := by rw [hright, Mat.get_ident hr hc]

/-- R34's second invariant: any `k` different rows of the generator matrix are a Vandermonde matrix times `T^-1`, both invertible. -/
theorem generator_rows_invertible {k m : Nat} {G : Mat} {sel : List Nat} (hn : k + m ≤ 256) (hG : generator k m = some G)
    (hlen : sel.length = k) (hnodup : sel.Nodup) (hsel : ∀ r, r ∈ sel → r < k + m) :
    ∃ D, matInv (selectedRows G k sel) = some D := by
  obtain ⟨Ti, hTi, rfl⟩ := generator_eq_some_iff.mp hG
  obtain ⟨hsquare, hleft⟩ := (matInv_eq_some_iff (squareOf_vanderTop _ _)).mp hTi
  obtain ⟨F, _, φ, hφ⟩ := exists_fieldMap
  have hget : ∀ j (hj : j < k), sel.getD j 0 = sel[j]'(hlen ▸ hj) := fun j hj => List.getD_eq_getElem _ _ _
  have hlt : ∀ j, j < k → sel.getD j 0 < k + m := fun j hj => by
    rw [hget j hj]
    exact hsel _ (List.getElem_mem _)
  have hinj : ∀ i j, i < k → j < k → BitVec.ofNat 8 (sel.getD i 0) = BitVec.ofNat 8 (sel.getD j 0) → i = j := by
    intro i j hi hj hij
    have hi' := hlt i hi
    have hj' := hlt j hj
    have heq := ofNat_byte_inj (by omega) (by omega) hij
    rw [hget i hi, hget j hj] at heq
    exact hnodup.getElem_inj_iff.mp heq
  have hdetTi : (matrixOf φ k k Ti).det ≠ 0 := by
    have hprod := congrArg Matrix.det ((mul_eq_ident_iff hφ hsquare (squareOf_vanderTop _ _)).mp hleft)
    rw [Matrix.det_mul, Matrix.det_one] at hprod
    exact left_ne_zero_of_mul_eq_one hprod
  refine matInv_isSome hφ (squareOf_build k _) ?_
  have hproduct := selectedRows_mul (A := vandermonde (k + m) k) (k := k) (sel := sel) rfl hsquare.2.2 hlt
  rw [selectedRows_vandermonde hlt] at hproduct
  have hrows := squareOf_build k fun j c => gfExp (BitVec.ofNat 8 (sel.getD j 0)) c
  rw [hproduct, matrixOf_mul hφ hrows.2.1 hrows.2.2 hsquare.2.2, Matrix.det_mul]
  exact mul_ne_zero (det_powers_ne_zero hφ hinj) hdetTi

/-! ### The shared precondition (R204) -/

theorem withValid_of_no_codec {s : State} (hg : s.gvalid = false) (off len : Nat) (body : Result) :
    withValid off len s body = raise .noCodec s :=
  if_pos hg

theorem withValid_of_too_many {s : State} (hg : s.gvalid = true) (hn : 256 < s.N) (off len : Nat) (body : Result) :
    withValid off len s body = .fault .noSuchShard := by
  simp [withValid, hg, hn]

theorem withValid_of_not_valid {off len : Nat} {s : State} (hg : s.gvalid = true) (hn : s.N ≤ 256) (h : ¬validShardSet off len s)
    (body : Result) : withValid off len s body = raise .invalidArgument s := by
  rcases withValid_cases off len s body with ⟨hg', -⟩ | ⟨-, hn', -⟩ | ⟨-, -, -, e⟩ | ⟨hvalid, -⟩
  · simp [hg] at hg'
  · exact absurd hn hn'.not_ge
  · exact e
  · exact absurd hvalid h

/-- A codec command that ends with ERR = 0 had a valid shard set. -/
theorem validShardSet_of_success {off len : Nat} {s t : State} {body : Result} (h : withValid off len s body = .next t)
    (herr : t.err = none) : validShardSet off len s := by
  rcases withValid_cases off len s body with ⟨-, e⟩ | ⟨-, -, e⟩ | ⟨-, -, -, e⟩ | ⟨hvalid, -⟩
  · rw [raise_spec (e.symm.trans h)] at herr
    cases herr
  · cases e.symm.trans h
  · rw [raise_spec (e.symm.trans h)] at herr
    cases herr
  · exact hvalid

/-- Everything a CDEC that answers a next state has done (R208). -/
theorem cdec_next_cases {off len : Nat} {s t : State} (h : exec (.cdec off len) s = .next t) :
    (t.err = some .noCodec ∨ t.err = some .invalidArgument ∨ t.err = some .insufficientShards) ∨
    validShardSet off len s ∧ s.K ≤ (presentShards s s.N).length ∧
      ((presentShards s s.N).length = s.N ∧ t = s.finish none ∨
        matInv (selectedRows s.g s.K ((presentShards s s.N).take s.K)) = none ∧ t.err = some .singular ∨
        ∃ D, matInv (selectedRows s.g s.K ((presentShards s s.N).take s.K)) = some D ∧
          t = State.finish { s with shard := reconstruct D ((presentShards s s.N).take s.K) off len s } none) := by
  rcases withValid_cases off len s _ with ⟨-, e⟩ | ⟨-, -, e⟩ | ⟨-, -, -, e⟩ | ⟨hvalid, -⟩
  · exact .inl (.inl (by rw [raise_spec (e.symm.trans h)]; rfl))
  · cases e.symm.trans h
  · exact .inl (.inr (.inl (by rw [raise_spec (e.symm.trans h)]; rfl)))
  · by_cases hcount : s.K ≤ (presentShards s s.N).length
    · by_cases hall : (presentShards s s.N).length = s.N
      · exact .inr ⟨hvalid, hcount, .inl ⟨hall, succeed_spec ((exec_cdec_of_all_present hvalid hall).symm.trans h)⟩⟩
      · rw [exec_cdec_of_some_absent hvalid hall hcount] at h
        cases hD : matInv (selectedRows s.g s.K ((presentShards s s.N).take s.K)) with
        | none =>
          rw [hD] at h
          exact .inr ⟨hvalid, hcount, .inr (.inl ⟨rfl, by rw [raise_spec h]; rfl⟩)⟩
        | some D =>
          rw [hD] at h
          exact .inr ⟨hvalid, hcount, .inr (.inr ⟨D, rfl, succeed_spec h⟩)⟩
    · have hend := cdec_endsInError_insufficient hvalid (Nat.not_le.mp hcount)
      exact .inl (.inr (.inr (by rw [raise_spec (hend.symm.trans h)]; rfl)))

/-- The selected shards are `K` different ones of the set. -/
theorem selected_spec {s : State} (hcount : s.K ≤ (presentShards s s.N).length) :
    ((presentShards s s.N).take s.K).length = s.K ∧ ((presentShards s s.N).take s.K).Nodup ∧
      ∀ x ∈ (presentShards s s.N).take s.K, x < s.N := by
  refine ⟨List.length_take_of_le hcount, ?nodup, fun x hx => (mem_presentShards.mp (List.mem_of_mem_take hx)).1⟩
  case nodup => exact ((presentShards_pairwise s s.N).imp Nat.ne_of_lt).sublist (List.take_sublist _ _)

/-- CDEC on a store that CINIT has filled does not end with Singular (R34, R208). -/
theorem cdec_err_ne_singular {off len : Nat} {s t : State} (hinv : Inv s) (hstore : storeIsGenerator s)
    (h : exec (.cdec off len) s = .next t) : t.err ≠ some .singular := by
  rcases cdec_next_cases h with (herr | herr | herr) | ⟨hvalid, hcount, ⟨-, rfl⟩ | ⟨hnone, -⟩ | ⟨D, -, rfl⟩⟩
  · simp [herr]
  · simp [herr]
  · simp [herr]
  · simp
  · obtain ⟨hlen, hnodup, hmem⟩ := selected_spec hcount
    obtain ⟨D, hD⟩ := generator_rows_invertible (hinv.counts hvalid.1).2.2 (hstore hvalid.1) hlen hnodup hmem
    rw [hD] at hnone
    cases hnone
  · simp

/-! ### The generator store under a step (R32, R34) -/

/-- What a step leaves of the codec: it is as before, or cleared, or what CINIT constructs. -/
def CodecKept (s t : State) : Prop :=
  (t.gvalid = s.gvalid ∧ t.k = s.k ∧ t.m = s.m ∧ t.g = s.g) ∨ t.gvalid = false ∨ generator t.K t.M = some t.g

theorem Writes.codecKept {i : Instr} {s u : State} (h : Writes i s u) : CodecKept s u := by
  cases h with
  | codec hi hbounds hG =>
    have hK := toNat_count (Nat.le_trans (Nat.le_add_right _ _) hbounds.2.2)
    have hM := toNat_count (Nat.le_trans (Nat.le_add_left _ _) hbounds.2.2)
    exact .inr (.inr (by simpa only [State.K, State.M, hK, hM] using hG))
  | _ => exact .inl ⟨rfl, rfl, rfl, rfl⟩

theorem hostStep_codecKept (v : Event) (s : State) : CodecKept s (hostStep v s) := by
  cases v with
  | reset contents => exact .inr (.inl rfl)
  | regWrite n x =>
    refine .inl ?_
    simp only [hostStep, regWrite]
    split_ifs <;> exact ⟨rfl, rfl, rfl, rfl⟩
  | _ => exact .inl ⟨rfl, rfl, rfl, rfl⟩

theorem executeStep_codecKept {s t : State} (h : executeStep s = .next t) : CodecKept s t := by
  rcases executeStep_cases s with ⟨i, hi⟩ | hi <;> rw [hi] at h
  · rcases exec_next_cases h with ⟨x, -, rfl⟩ | ⟨u, hu, rfl⟩
    · exact .inl ⟨rfl, rfl, rfl, rfl⟩
    · exact hu.codecKept
  · rw [raise_spec h]
    exact .inl ⟨rfl, rfl, rfl, rfl⟩

theorem step_codecKept {s t : State} (h : step s = .next t) : CodecKept s t := by
  have hmoves := step_moves s
  generalize hr : step s = r at hmoves
  cases hmoves with
  | engine hturn =>
    have hkept := executeStep_codecKept (hr.symm.trans h)
    obtain ⟨-, ⟨-, rfl⟩ | ⟨rest, -, rfl⟩⟩ := hturn <;> exact hkept
  | idle => cases hr.symm.trans h; exact .inl ⟨rfl, rfl, rfl, rfl⟩
  | host hi hv => cases hr.symm.trans h; exact hostStep_codecKept _ _
  | refused => cases hr.symm.trans h

/-! ### The obligations -/

/-- Settles O53: a step leaves the codec, clears it, or constructs it, and the top block of what CINIT constructs is the identity. -/
theorem everyStepKeepsTheIdentityBlock : Obligations.EveryStepKeepsTheIdentityBlock := by
  intro s t hstep
  rcases step_codecKept hstep with ⟨hg, hk, hm, hG⟩ | hcleared | hgenerator
  · simp only [storeIsGenerator, State.K, State.M, hg, hk, hm, hG]
    exact ⟨id, id⟩
  · exact ⟨fun _ hg => by simp [hcleared] at hg, fun _ hg => by simp [hcleared] at hg⟩
  · exact ⟨fun _ _ => topIsIdentity_generator hgenerator, fun _ _ => hgenerator⟩

/-- Settles O50: the product with the inverse of the top block is a built matrix. -/
theorem cinitConstructsTheCodec : Obligations.CinitConstructsTheCodec := by
  refine fun k m s => ⟨fun h => cinit_endsInError_argument h s, fun hk hm hn Ti hTi => ?construct⟩
  case construct =>
    have hcols : Ti.cols = k := (matInv_shape hTi).2.2
    rw [← vanderTop_eq (Nat.le_add_right k m)] at hTi
    have hG := generator_eq_some_iff.mpr ⟨Ti, hTi, rfl⟩
    refine ⟨_, exec_cinit_of_generator ⟨hk, hm, hn⟩ hG s, rfl, toNat_count (by omega), toNat_count (by omega),
      ⟨Mat.wf_mul _ _, rfl, hcols, fun r c hr hc => ?_⟩, rfl, fun _ _ => rfl⟩
    have hV : ∀ i, i < k → (vandermonde (k + m) k).get r i = gfExp (BitVec.ofNat 8 r) i := fun i hi => Mat.get_build _ hr hi
    exact (Mat.get_mul hr (hcols.symm ▸ hc)).trans (xorOver_congr fun i hi => by rw [hV i hi])

/-- Settles O51: the elimination finds the inverse of the Vandermonde matrix's top block. -/
theorem cinitNeverEndsWithSingular : Obligations.CinitNeverEndsWithSingular := by
  intro k m s hk hm hn
  obtain ⟨G, hG⟩ := generator_isSome hn
  exact ⟨_, exec_cinit_of_generator ⟨hk, hm, hn⟩ hG s, rfl, rfl, hG⟩

/-- Settles O52: the selected rows are a Vandermonde matrix times an invertible one, and CDEC selects different rows. -/
theorem anyKGeneratorRowsAreInvertible : Obligations.AnyKGeneratorRowsAreInvertible := by
  refine ⟨fun k m G sel _ _ hn hG hlen hnodup hsel => generator_rows_invertible hn hG hlen hnodup hsel,
    fun off len s hinv hstore => ?cdec⟩
  case cdec =>
    obtain ⟨t, ht⟩ := exec_completes (.cdec off len) hinv
    exact ⟨t, ht, cdec_err_ne_singular hinv hstore ht⟩

end Sys2Proof.Machine

/-! The codec's data path (42_codec.md R204 to R208) and its round trips (R212): what is encoded is verified, and what is reconstructed
from the shards of an encoded set is that set. -/

namespace Sys2Proof.Machine

/-! ### Parity bytes (R205 to R207) -/

/-- CVFY's result (R207). -/
theorem parityOk_iff {off len : Nat} {s : State} : parityOk off len s = true ↔
    ∀ i p, i < s.M → off ≤ p → p < off + len → memRead s.shard (s.K + i) p = parity s.g s.K s.shard i p := by
  simp only [parityOk, List.all_eq_true, List.mem_range, beq_iff_eq]
  constructor
  · intro h i p hi hlo hhi
    have hbyte := h i hi (p - off) (by omega)
    rwa [Nat.add_sub_of_le hlo] at hbyte
  · exact fun h i hi j hj => h i (off + j) hi (Nat.le_add_right _ _) (Nat.add_lt_add_left hj _)

/-- What CENC makes of shard memory: canonical, the parity bytes in range `PAR` of the data shards, every other byte as before (R206). -/
structure Encoded (off len : Nat) (s : State) (mem : Memory) : Prop where
  wf : Memory.wf mem = true
  parity : ∀ i p, i < s.M → off ≤ p → p < off + len → memRead mem (s.K + i) p = parity s.g s.K s.shard i p
  other : ∀ x p, p < 65536 → ¬((s.K ≤ x ∧ x < s.N) ∧ off ≤ p ∧ p < off + len) → memRead mem x p = memRead s.shard x p

theorem encode_spec {off len : Nat} {s : State} (hvalid : validShardSet off len s) (hwf : Memory.wf s.shard = true) :
    Encoded off len s (writeShards s.K (fun _ => true) (parity s.g s.K) off len s.M s.shard) := by
  have hrange := hvalid.range_le
  obtain ⟨hwf', hread⟩ := parityWrites_spec (g := s.g) (which := fun _ => true) hwf hvalid.2.1 hrange
  refine ⟨hwf', fun i p hi hlo hhi => ?parity, fun x p hp houtside => ?other⟩
  case parity =>
    rw [hread _ p (by omega), if_pos ⟨by omega, by omega, rfl, hlo, hhi⟩, Nat.add_sub_cancel_left]
  case other => exact (hread x p hp).trans (if_neg fun ⟨hle, hlt, _, hin⟩ => houtside ⟨⟨hle, hlt⟩, hin⟩)

/-! ### Rows of matrices times columns of bytes -/

/-- A row of the identity picks its byte. -/
theorem xorOver_identity_row {k i : Nat} (hi : i < k) {row : Nat → Byte} (hrow : ∀ c, c < k → row c = if i = c then 1 else 0)
    (v : Nat → Byte) : xorOver k (fun c => gfMul (row c) (v c)) = v i := by
  obtain ⟨F, _, φ, hφ⟩ := exists_fieldMap
  apply hφ.injective
  rw [hφ.map_xorOver, Finset.sum_eq_single ⟨i, hi⟩]
  · rw [hrow i hi, if_pos rfl, gfMul_one_left]
  · intro c _ hc
    have hne : i ≠ c := fun h => hc (Fin.ext h.symm)
    rw [hrow c c.isLt, if_neg hne, show gfMul 0 (v c) = 0 from gfMul_zero_left _, hφ.map_zero]
  · exact fun h => absurd (Finset.mem_univ _) h

/-- A row of `A` times the column `B v` is a row of `A B` times `v`. -/
theorem xorOver_mul_row {A B : Mat} {r : Nat} (hr : r < A.rows) (v : Nat → Byte) :
    xorOver A.cols (fun c => gfMul (A.get r c) (xorOver B.cols fun j => gfMul (B.get c j) (v j))) =
      xorOver B.cols fun j => gfMul ((A.mul B).get r j) (v j) := by
  obtain ⟨F, _, φ, hφ⟩ := exists_fieldMap
  apply hφ.injective
  rw [hφ.map_xorOver, hφ.map_xorOver]
  simp only [hφ.map_mul, hφ.map_xorOver, Finset.mul_sum]
  rw [Finset.sum_comm]
  refine Finset.sum_congr rfl fun j _ => ?_
  rw [Mat.get_mul hr j.isLt, hφ.map_xorOver, Finset.sum_mul]
  simp only [hφ.map_mul, mul_assoc]

/-! ### Reconstruction of an encoded shard set (R212) -/

section Reconstruction

variable {G : Mat} {k : Nat} {orig : Memory} {p : Nat}

/-- Every shard of an encoded set is its row of the generator matrix times the data shards: position `p` of shard `x`. -/
def isCodeword (G : Mat) (k : Nat) (orig : Memory) (p x : Nat) : Prop :=
  memRead orig x p = xorOver k fun c => gfMul (G.get x c) (memRead orig c p)

/-- The data shards are a part of the encoded set: the top block of the generator matrix is the identity. -/
theorem isCodeword_of_data (hid : topIsIdentity G k) {x : Nat} (hx : x < k) : isCodeword G k orig p x :=
  (xorOver_identity_row hx (fun c hc => hid x c hx hc) fun c => memRead orig c p).symm

/-- The inverse of the selected rows takes the selected shards of an encoded set back to the data shards. -/
theorem decodedByte_of_codewords {D : Mat} {sel : List Nat} {mem : Memory} (hD : matInv (selectedRows G k sel) = some D)
    (hsel : ∀ c, c < k → isCodeword G k orig p (sel.getD c 0))
    (hmem : ∀ c, c < k → memRead mem (sel.getD c 0) p = memRead orig (sel.getD c 0) p) {i : Nat} (hi : i < k) :
    decodedByte D k sel mem i p = memRead orig i p := by
  obtain ⟨⟨-, hrows, hcols⟩, hinverse⟩ := (matInv_eq_some_iff (A := selectedRows G k sel) (squareOf_build k _)).mp hD
  have hcell : ∀ c j, c < k → j < k → G.get (sel.getD c 0) j = (selectedRows G k sel).get c j := fun c j hc hj =>
    (Mat.get_build (fun j c => G.get (sel.getD j 0) c) hc hj).symm
  calc decodedByte D k sel mem i p
      = xorOver D.cols fun c => gfMul (D.get i c) (xorOver k fun j => gfMul ((selectedRows G k sel).get c j) (memRead orig j p)) := by
        rw [hcols]
        refine xorOver_congr fun c hc => ?_
        rw [hmem c hc, hsel c hc]
        exact congrArg _ (xorOver_congr fun j hj => by rw [hcell c j hc hj])
    _ = xorOver k fun j => gfMul ((D.mul (selectedRows G k sel)).get i j) (memRead orig j p) :=
        xorOver_mul_row (B := selectedRows G k sel) (hrows ▸ hi) _
    _ = memRead orig i p := xorOver_identity_row hi (fun c hc => by rw [hinverse, Mat.get_ident hi hc]) _

end Reconstruction

/-- The reconstruction restores position `p` of an encoded set whose present shards hold it. -/
theorem memRead_reconstruct_of_encoded {off len : Nat} {s : State} {D : Mat} {orig : Memory} {p : Nat} (hvalid : validShardSet off len s)
    (hwf : Memory.wf s.shard = true) (hcount : s.K ≤ (presentShards s s.N).length)
    (hD : matInv (selectedRows s.g s.K ((presentShards s s.N).take s.K)) = some D) (hid : topIsIdentity s.g s.K) (hlo : off ≤ p)
    (hhi : p < off + len) (hencoded : ∀ i, i < s.M → memRead orig (s.K + i) p = parOf s orig i p)
    (hpresent : ∀ y, y < s.N → s.presentAt y = true → memRead s.shard y p = memRead orig y p) {x : Nat} (hx : x < s.N) :
    memRead (reconstruct D ((presentShards s s.N).take s.K) off len s) x p = memRead orig x p := by
  obtain ⟨-, hdata, hparity, hother⟩ := reconstruct_spec hvalid hwf hcount D
  have hp : p < 65536 := Nat.lt_of_lt_of_le hhi hvalid.range_le
  have hcodeword : ∀ y, y < s.N → isCodeword s.g s.K orig p y := fun y hy => by
    by_cases hyK : y < s.K
    · exact isCodeword_of_data hid hyK
    · obtain ⟨i, rfl⟩ := Nat.exists_eq_add_of_le (Nat.not_lt.mp hyK)
      exact hencoded i (Nat.lt_of_add_lt_add_left hy)
  have hkept : ∀ y, y < s.N → s.presentAt y = true →
      memRead (reconstruct D ((presentShards s s.N).take s.K) off len s) y p = memRead orig y p := fun y hy hthere => by
    rw [hother y p hp fun h => by simp [hthere] at h, hpresent y hy hthere]
  have hrestored : ∀ i, i < s.K →
      memRead (reconstruct D ((presentShards s s.N).take s.K) off len s) i p = memRead orig i p := fun i hi => by
    cases hthere : s.presentAt i with
    | true => exact hkept i (Nat.lt_add_right _ hi) hthere
    | false =>
      rw [hdata i p hi hthere hlo hhi]
      refine decodedByte_of_codewords hD (fun c hc => hcodeword _ (selected_mem hcount hc).1) (fun c hc => ?_) hi
      obtain ⟨hlt, hsel⟩ := selected_mem hcount hc
      exact hpresent _ hlt hsel
  cases hthere : s.presentAt x with
  | true => exact hkept x hx hthere
  | false =>
    by_cases hxK : x < s.K
    · exact hrestored x hxK
    · obtain ⟨i, rfl⟩ := Nat.exists_eq_add_of_le (Nat.not_lt.mp hxK)
      have hi : i < s.M := Nat.lt_of_add_lt_add_left hx
      exact (hparity i p hi hthere hlo hhi).trans ((parity_congr hrestored).trans (hencoded i hi).symm)

/-! ### The obligations -/

/-- Settles O54: the three outcomes of the shared precondition, for each of the three commands. -/
theorem codecCommandsNeedAValidShardSet : Obligations.CodecCommandsNeedAValidShardSet := by
  refine fun off len d s => ⟨fun hg => ?noCodec, fun hg hn hbad => ?invalid, fun hg hn => ?noShard⟩
  case noCodec =>
    have hend := withValid_of_no_codec hg off len
    exact ⟨hend _, hend _, hend _, cgen_endsInError hg d⟩
  case invalid =>
    have hinvalid : ¬validShardSet off len s := by
      rintro ⟨-, -, hcount, hlens, hrange⟩
      rcases hbad with hbad | ⟨t, ht, hbad⟩ | hbad
      · exact hbad hcount
      · exact hbad (hlens t ht)
      · exact hbad.not_ge hrange
    have hend := withValid_of_not_valid hg hn hinvalid
    exact ⟨hend _, hend _, hend _⟩
  case noShard =>
    have hend := withValid_of_too_many hg hn off len
    exact ⟨hend _, hend _, hend _⟩

/-- Settles O55: CENC's writes of a valid shard set. -/
theorem cencWritesEveryParityByteInRange : Obligations.CencWritesEveryParityByteInRange := by
  intro off len s hwf hvalid
  obtain ⟨hwf', hparity, hother⟩ := encode_spec hvalid hwf
  refine ⟨_, exec_cenc_of_valid hvalid, hparity, fun sh p houtside => hother _ _ p.isLt ?_, rfl, hwf'⟩
  simpa using houtside

/-- Settles O56: the check of every parity byte. -/
theorem cvfyReportsWhetherParityMatches : Obligations.CvfyReportsWhetherParityMatches :=
  fun _ _ _ hvalid => ⟨_, exec_cvfy_of_valid hvalid, parityOk_iff, rfl, fun _ _ => rfl⟩

/-- Settles O57: CDEC by the number of present shards, and what the reconstruction makes of shard memory. -/
theorem cdecReconstructsTheAbsentShards : Obligations.CdecReconstructsTheAbsentShards := by
  intro off len s hwf hvalid
  rw [show (List.range s.N).countP (fun x => s.presentAt x) = (presentShards s s.N).length from List.countP_eq_length_filter]
  refine ⟨fun hall => exec_cdec_of_all_present hvalid (presentShards_all.mpr hall), cdec_endsInError_insufficient hvalid, ?_⟩
  rintro ⟨x, hx, habsent⟩ hcount sel rfl
  have hexec := exec_cdec_of_some_absent hvalid (fun hall => by simp [presentShards_all.mp hall x hx] at habsent) hcount
  refine ⟨fun hnone => ?singular, fun D hD => ?decode⟩
  case singular => exact hexec.trans (by rw [selectedRows, presentShards, hnone]; rfl)
  case decode =>
    obtain ⟨hwf', hdata, hparity, hother⟩ := reconstruct_spec hvalid hwf hcount D
    refine ⟨_, hexec.trans (by rw [selectedRows, presentShards, hD]; rfl), hdata, hparity, fun sh p houtside => ?_, rfl, hwf'⟩
    exact hother sh.toNat p.toNat p.isLt (by simpa using houtside)

/-- Settles O59: CENC leaves the data shards, of which the parity bytes are checked. -/
theorem verifyAfterEncodeIsTrue : Obligations.VerifyAfterEncodeIsTrue := by
  intro off len s t hwf hexec herr
  have hvalid := validShardSet_of_success hexec herr
  obtain rfl := succeed_spec ((exec_cenc_of_valid hvalid).symm.trans hexec)
  obtain ⟨-, hparity, hother⟩ := encode_spec hvalid hwf
  refine ⟨_, exec_cvfy_of_valid hvalid, rfl, parityOk_iff.mpr fun i p hi hlo hhi => ?_, fun _ _ => rfl⟩
  have hrange := hvalid.range_le
  refine (hparity i p hi hlo hhi).trans (parity_congr fun c hc => (hother c p (by omega) ?_).symm)
  exact fun h => hc.not_ge h.1.1

/-- Settles O60: the inverse of the selected rows gives the data shards back, and the parity shards are parity of them. -/
theorem reconstructionRestoresAnEncodedShardSet : Obligations.ReconstructionRestoresAnEncodedShardSet := by
  intro off len s t orig hwf hid hencoded hpresent hexec herr x p hx hlo hhi
  rcases cdec_next_cases hexec with (h | h | h) | ⟨hvalid, hcount, ⟨hall, rfl⟩ | ⟨-, h⟩ | ⟨D, hD, rfl⟩⟩
  · simp [herr] at h
  · simp [herr] at h
  · simp [herr] at h
  · exact hpresent x p hx (presentShards_all.mp hall x hx) hlo hhi
  · simp [herr] at h
  · exact memRead_reconstruct_of_encoded hvalid hwf hcount hD hid hlo hhi (fun i hi => hencoded i p hi hlo hhi)
      (fun y hy hthere => hpresent y p hy hthere hlo hhi) hx

end Sys2Proof.Machine
